-- ==== Sys2Proof/Word.lean ====
section
/-! DEFINITION. The word types of EAN13ENC (00_scope.md R5, R7): bytes, 16-bit operands (CAPW), 64-bit
operands (VW) and the 128-bit command word (CMDW). All are unsigned. -/

namespace Sys2Proof

/-- One byte of the buffer or of a response. -/
abbrev Byte := BitVec 8

/-- A capacity, cursor, bit index or width operand: `CAPW` = 16 bits (R5). -/
abbrev Half := BitVec 16

/-- The VALUE or NUMBER operand: `VW` = 64 bits (R5). -/
abbrev VWord := BitVec 64

/-- A command word, `CMD[127:0]` (30_encoding.md R45). -/
abbrev Cmd := BitVec 128

end Sys2Proof
end

