-- ==== Sys2Proof/Syntax.lean ====
section
/-! DEFINITION. The commands of EAN13ENC, one constructor per row of spec/opcode_table.json, their operands
in the order of the source's call signatures (30_encoding.md R55). -/

namespace Sys2Proof

/-- The check-digit policy of ENCODE, `MOD[2]`: 0 Validate, 1 Ignore (30_encoding.md R48). -/
inductive Policy where
  | validate
  | ignore
  deriving DecidableEq, Repr

/-- One command (30_encoding.md R49). -/
inductive Instr where
  /-- CREATE `capacityBits` (R60). -/
  | create (capacityBits : Half)
  /-- APPEND `value`, `width` (R61, R62). -/
  | append (value : VWord) (width : Half)
  /-- SETBITS `value`, `startBit`, `width` (R63); legal for `width ≤ 64`. -/
  | setbits (value : VWord) (startBit : Half) (width : Half)
  /-- SETBIT `index`, `bit` (R64). -/
  | setbit (index : Half) (bit : Bool)
  /-- RAWBYTES (R65). -/
  | rawbytes
  /-- BITCOUNT (R66). -/
  | bitcount
  /-- TOBITSTR (R67). -/
  | tobitstr
  /-- ENCODE with `SYM` = 0, the implemented symbology (R80). -/
  | encode (number : VWord) (policy : Policy)
  /-- ENCODE with `SYM` = 1, the first unimplemented variant (R94). -/
  | encodeU1 (number : VWord) (policy : Policy)
  /-- ENCODE with `SYM` = 2, the second unimplemented variant (R94). -/
  | encodeU2 (number : VWord) (policy : Policy)
  deriving DecidableEq, Repr

end Sys2Proof
end

