-- ==== Sys2Proof/WellFormed.lean ====
section
/-! DEFINITION. Which commands a legal word can stand for: the one operand limit that the field's own
width does not enforce is SETBITS' width of at most 64 (30_encoding.md R47, R52 item 4). -/

namespace Sys2Proof

/-- The command is the reading of some legal word (30_encoding.md R52). -/
def Instr.wf : Instr → Bool
  | .setbits _ _ width => decide (width.toNat ≤ 64)
  | .create _ | .append _ _ | .setbit _ _ | .rawbytes | .bitcount | .tobitstr
  | .encode _ _ | .encodeU1 _ _ | .encodeU2 _ _ => true

end Sys2Proof
end

