-- ==== Sys2Proof/Decode.lean ====
section
/-! DEFINITION. The command word (30_encoding.md R45 to R49, R52): its fields, the decoder (total, naming
why a word is illegal), the encoder, the byte transport (R46) and the machine-readable opcode map (R49). -/

namespace Sys2Proof

/-- The fields of a command word (R45). -/
structure Fields where
  op  : BitVec 4
  mod : BitVec 4
  rsv : BitVec 24
  a   : Half
  w   : Half
  v   : VWord
  deriving DecidableEq, Repr

/-- Why a word is illegal, one constructor per item of R52. -/
inductive Illegal where
  /-- Item 1: `OP` is 0x0 or 0x9 to 0xF. -/
  | opcode
  /-- Item 2: `RSV` is nonzero. -/
  | reserved
  /-- Item 3: a field that the command's format marks "0" is nonzero. -/
  | unusedField
  /-- Item 4: SETBITS with `W > 64`. -/
  | setbitsWidth
  /-- Item 5: ENCODE with `SYM` = 3. -/
  | encodeSym
  deriving DecidableEq, Repr

/-- The fields of a word: `OP[127:124] MOD[123:120] RSV[119:96] A[95:80] W[79:64] V[63:0]` (R45). -/
def fieldsOf (c : Cmd) : Fields where
  op  := c.extractLsb' 124 4
  mod := c.extractLsb' 120 4
  rsv := c.extractLsb' 96 24
  a   := c.extractLsb' 80 16
  w   := c.extractLsb' 64 16
  v   := c.extractLsb' 0 64

/-- The word made of the fields, `OP` most significant (R45). -/
def wordOf (f : Fields) : Cmd := f.op ++ f.mod ++ f.rsv ++ f.a ++ f.w ++ f.v

/-- `POLICY` = `MOD[2]`: 0 Validate, 1 Ignore (R48). -/
def policyOfBit (b : Bool) : Policy := if b then .ignore else .validate

/-- The bit that stands for a policy (R48). -/
def policyBit : Policy → BitVec 1
  | .validate => 0
  | .ignore   => 1

/-- The ten commands by opcode, format FE split on `SYM` = `MOD[1:0]` (R47, R49). Every operand is taken
directly from its field (R48). -/
def decodeFields (f : Fields) : Except Illegal Instr :=
  if f.rsv ≠ 0 then .error .reserved
  else match f.op.toNat with
    | 0x1 => if f.mod = 0 ∧ f.w = 0 ∧ f.v = 0 then .ok (.create f.a) else .error .unusedField
    | 0x2 => if f.mod = 0 ∧ f.a = 0 then .ok (.append f.v f.w) else .error .unusedField
    | 0x3 =>
      if f.mod ≠ 0 then .error .unusedField
      else if f.w.toNat ≤ 64 then .ok (.setbits f.v f.a f.w) else .error .setbitsWidth
    | 0x4 =>
      if f.mod.extractLsb' 1 3 = 0 ∧ f.w = 0 ∧ f.v = 0 then .ok (.setbit f.a (f.mod.getLsbD 0))
      else .error .unusedField
    | 0x5 => if f.mod = 0 ∧ f.a = 0 ∧ f.w = 0 ∧ f.v = 0 then .ok .rawbytes else .error .unusedField
    | 0x6 => if f.mod = 0 ∧ f.a = 0 ∧ f.w = 0 ∧ f.v = 0 then .ok .bitcount else .error .unusedField
    | 0x7 => if f.mod = 0 ∧ f.a = 0 ∧ f.w = 0 ∧ f.v = 0 then .ok .tobitstr else .error .unusedField
    | 0x8 =>
      if f.mod.getLsbD 3 = true ∨ f.a ≠ 0 ∨ f.w ≠ 0 then .error .unusedField
      else match (f.mod.extractLsb' 0 2).toNat with
        | 0 => .ok (.encode f.v (policyOfBit (f.mod.getLsbD 2)))
        | 1 => .ok (.encodeU1 f.v (policyOfBit (f.mod.getLsbD 2)))
        | 2 => .ok (.encodeU2 f.v (policyOfBit (f.mod.getLsbD 2)))
        | _ => .error .encodeSym
    | _ => .error .opcode

/-- The decoder: every one of the `2^128` words is a legal command or illegal by name (R53). -/
def decode (c : Cmd) : Except Illegal Instr := decodeFields (fieldsOf c)

/-- The fields of a command, every unused one zero (R47, R55). -/
def instrFields : Instr → Fields
  | .create capacityBits         => ⟨0x1, 0, 0, capacityBits, 0, 0⟩
  | .append value width          => ⟨0x2, 0, 0, 0, width, value⟩
  | .setbits value startBit width => ⟨0x3, 0, 0, startBit, width, value⟩
  | .setbit index bit            => ⟨0x4, 0b000#3 ++ BitVec.ofBool bit, 0, index, 0, 0⟩
  | .rawbytes                    => ⟨0x5, 0, 0, 0, 0, 0⟩
  | .bitcount                    => ⟨0x6, 0, 0, 0, 0, 0⟩
  | .tobitstr                    => ⟨0x7, 0, 0, 0, 0, 0⟩
  | .encode number policy        => ⟨0x8, 0b0#1 ++ policyBit policy ++ 0b00#2, 0, 0, 0, number⟩
  | .encodeU1 number policy      => ⟨0x8, 0b0#1 ++ policyBit policy ++ 0b01#2, 0, 0, 0, number⟩
  | .encodeU2 number policy      => ⟨0x8, 0b0#1 ++ policyBit policy ++ 0b10#2, 0, 0, 0, number⟩

/-- The encoder: the one word a command assembles to (R55). -/
def encode (i : Instr) : Cmd := wordOf (instrFields i)

/-- A command word as 16 bytes, most significant first: byte 0 is `CMD[127:120]`, byte 15 is `CMD[7:0]`
(R46). -/
def commandBytes (c : Cmd) : List Byte :=
  (List.range 16).map (fun i => c.extractLsb' (120 - 8 * i) 8)

/-- The word that 16 bytes carry (R46); any other number of bytes is no command word. -/
def commandOfBytes (bs : List Byte) : Option Cmd :=
  if bs.length = 16 then some (bs.foldl (fun acc b => acc <<< 8 ||| b.setWidth 128) 0) else none

/-- Decoding from a byte-wide transport: `none` when the bytes are not the 16 of one word. -/
def decodeBytes (bs : List Byte) : Option (Except Illegal Instr) :=
  (commandOfBytes bs).map decode

/-- The word whose bits are `w`, bit 0 the least significant of the one 128-bit word, every bit from `nbits`
up zero (spec/opcode_table.json's numbering is R45's). -/
def tableWord (nbits w : Nat) : Cmd := BitVec.ofNat 128 (w % 2 ^ nbits)

/-- What the decoder reads from a word given by its bits, laid out as R46 lays a word out. -/
def decodeTableWord (nbits w : Nat) : Option Instr :=
  match decodeBytes (commandBytes (tableWord nbits w)) with
  | some (.ok i) => some i
  | some (.error _) => none
  | none => none

/-- A row of the opcode map: a word `c` is the row's command when `c &&& mask = pattern` (R49). -/
structure OpcodeRow where
  mnemonic : String
  pattern  : Cmd
  mask     : Cmd
  deriving DecidableEq, Repr

/-- The match and mask table of R49. -/
def opcodeRows : List OpcodeRow :=
  [ ⟨"CREATE",    0x10000000000000000000000000000000, 0xFFFFFFFF0000FFFFFFFFFFFFFFFFFFFF⟩,
    ⟨"APPEND",    0x20000000000000000000000000000000, 0xFFFFFFFFFFFF00000000000000000000⟩,
    ⟨"SETBITS",   0x30000000000000000000000000000000, 0xFFFFFFFF0000FF800000000000000000⟩,
    ⟨"SETBIT",    0x40000000000000000000000000000000, 0xFEFFFFFF0000FFFFFFFFFFFFFFFFFFFF⟩,
    ⟨"RAWBYTES",  0x50000000000000000000000000000000, 0xFFFFFFFFFFFFFFFFFFFFFFFFFFFFFFFF⟩,
    ⟨"BITCOUNT",  0x60000000000000000000000000000000, 0xFFFFFFFFFFFFFFFFFFFFFFFFFFFFFFFF⟩,
    ⟨"TOBITSTR",  0x70000000000000000000000000000000, 0xFFFFFFFFFFFFFFFFFFFFFFFFFFFFFFFF⟩,
    ⟨"ENCODE",    0x80000000000000000000000000000000, 0xFBFFFFFFFFFFFFFF0000000000000000⟩,
    ⟨"ENCODE.U1", 0x81000000000000000000000000000000, 0xFBFFFFFFFFFFFFFF0000000000000000⟩,
    ⟨"ENCODE.U2", 0x82000000000000000000000000000000, 0xFBFFFFFFFFFFFFFF0000000000000000⟩ ]

/-- The mnemonic of a command's row (R49). -/
def Instr.mnemonic : Instr → String
  | .create _      => "CREATE"
  | .append _ _    => "APPEND"
  | .setbits _ _ _ => "SETBITS"
  | .setbit _ _    => "SETBIT"
  | .rawbytes      => "RAWBYTES"
  | .bitcount      => "BITCOUNT"
  | .tobitstr      => "TOBITSTR"
  | .encode _ _    => "ENCODE"
  | .encodeU1 _ _  => "ENCODE.U1"
  | .encodeU2 _ _  => "ENCODE.U2"

end Sys2Proof
end

