-- ==== Sys2Proof/Config.lean ====
section
/-! DEFINITION. What an implementation of EAN13ENC fixes (00_scope.md R5): the sizes, the TYPES of the
three open parameters (`APPEND_MODE`, `WIDE_SKIP`, the tables). The values this hardware gives the
parameters are definitions of Machine/Params.lean. No value of the spec is left free in a way a command
could observe, so there is no opaque constant here (93_implementation_defined.md U8). -/

namespace Sys2Proof.Config

/-- `NDIG`: digits in the digit sequence (R5). -/
def ndig : Nat := 13

/-- `PATBITS`: bits of the pattern ENCODE builds (R5). -/
def patBits : Nat := 113

/-- `PATBYTES` = `ceil(113/8)` (R5). -/
def patBytes : Nat := 15

/-- `BUFBYTES`: bytes of buffer storage, `ceil(65535/8)` (R5). -/
def bufBytes : Nat := 8192

/-- `APPEND_MODE` (20_memory.md R32; 92_eei_decisions.md D13): whether an APPEND writes every bit or only
ORs in the one bits. -/
inductive AppendMode where
  | overwrite
  | orIn
  deriving DecidableEq, Repr

/-- `WIDE_SKIP` (40_bitstream_builder.md R62; 93_implementation_defined.md U2): where the unwritten
positions of an APPEND wider than 64 bits lie. -/
inductive WideSkip where
  | leading
  | trailing
  deriving DecidableEq, Repr

/-- The constant tables that only ENCODE reads (10_state.md R20): ten 7-bit patterns each, and the parity
matrix with ten rows of six booleans, `true` selecting G (41_symbol_encoder.md R85). -/
structure Tables where
  ltab : Vector (BitVec 7) 10
  gtab : Vector (BitVec 7) 10
  rtab : Vector (BitVec 7) 10
  par  : Vector (Vector Bool 6) 10
  deriving DecidableEq, Repr

end Sys2Proof.Config
end

