-- ==== Sys2Proof/Machine/Params.lean ====
section
/-! DEFINITION. The values this hardware gives the open parameters of 00_scope.md R5: `APPEND_MODE`,
`WIDE_SKIP`, and the tables of 41_symbol_encoder.md R86, R87. The operations of the other files take them as
arguments; only the meanings of APPEND and ENCODE name these values. -/

namespace Sys2Proof.Machine

open Sys2Proof.Config

/-- `APPEND_MODE = overwrite` (R5, D13). Marked DESIGN CHOICE of the spec, unsafe for a block that ORs; log 7. -/
def appendMode : AppendMode := .overwrite

/-- `WIDE_SKIP = leading` (R5, D12). Marked DESIGN CHOICE of the spec, unsafe for a block that skips last;
log 8. -/
def wideSkip : WideSkip := .leading

/-- The pattern tables (R86) and the parity matrix (R87). Marked PRESUMED: the spec supplies them from general
knowledge; unsafe if the repository's differ; log 9. -/
def tables : Tables where
  ltab := #v[0b0001101, 0b0011001, 0b0010011, 0b0111101, 0b0100011,
             0b0110001, 0b0101111, 0b0111011, 0b0110111, 0b0001011]
  gtab := #v[0b0100111, 0b0110011, 0b0011011, 0b0100001, 0b0011101,
             0b0111001, 0b0000101, 0b0010001, 0b0001001, 0b0010111]
  rtab := #v[0b1110010, 0b1100110, 0b1101100, 0b1000010, 0b1011100,
             0b1001110, 0b1010000, 0b1000100, 0b1001000, 0b1110100]
  par  := #v[#v[false, false, false, false, false, false],
             #v[false, false, true,  false, true,  true],
             #v[false, false, true,  true,  false, true],
             #v[false, false, true,  true,  true,  false],
             #v[false, true,  false, false, true,  true],
             #v[false, true,  true,  false, false, true],
             #v[false, true,  true,  true,  false, false],
             #v[false, true,  false, true,  false, true],
             #v[false, true,  false, true,  true,  false],
             #v[false, true,  true,  false, true,  false]]

end Sys2Proof.Machine
end

