-- ==== Sys2Proof/Machine/State.lean ====
section
/-! DEFINITION. The state of EAN13ENC (10_state.md R24): BV, CAP, CUR, BUF, FLT, and beside them the model's
own two lists, the host's events still to come and the responses given (00_scope.md R6; R21 says the ports are
not state of the block, logs 1 and 2). The reset state is R23's. -/

namespace Sys2Proof.Machine

/-- Buffer storage as (byte index, byte) pairs, canonical when the indices rise strictly, lie below `BUFBYTES`
and no listed byte is what an unlisted one reads as (`Memory.wf` in Machine/Ops.lean). -/
abbrev Memory := List Host.Cell

/-- What the host does at the block's inputs (00_scope.md R6; 44_host_boundary.md R113). -/
inductive HostEvent where
  /-- A command word on the command port. -/
  | command (word : Cmd)
  /-- The reset input, asserted between two commands (70_reset_and_hazards.md R140, R141). -/
  | reset
  deriving DecidableEq, Repr

/-- The status of a response (30_encoding.md R51; 60_exceptions.md R120); codes 7 to 15 are never produced. -/
inductive Status where
  /-- 0, success. -/
  | ok
  /-- 1, reported outcome of ENCODE (R121). -/
  | checkDigitMismatch
  /-- 2, reported outcome of ENCODE (R122). -/
  | unsupportedSymbology
  /-- 3, refusal of an illegal word (R123). -/
  | illegalCommand
  /-- 4, refusal of a buffer command when no buffer exists (R124). -/
  | noBuffer
  /-- 5, the sticky fault (R125). -/
  | boundsFault
  /-- 6, refusal while FLT = 1 (R126). -/
  | faulted
  deriving DecidableEq, Repr

/-- A response `(ST, VAL, LEN, DATA)` (30_encoding.md R50); `LEN` is the length of `DATA` and is computed
(`Response.len` in Machine/Ops.lean). -/
structure Response where
  st   : Status
  val  : Half
  data : List Byte
  deriving DecidableEq, Repr

/-- The state (10_state.md R24). -/
structure State where
  /-- BV: a buffer exists (R15). -/
  bv  : Bool
  /-- CAP: declared capacity in bits (R13). -/
  cap : Half
  /-- CUR: append cursor in bits (R14). -/
  cur : Half
  /-- BUF: the 8192 bytes of buffer storage (R19). -/
  buf : Memory
  /-- FLT: the sticky fault (R16). -/
  flt : Bool
  /-- The MODEL's own: host events still to come, next first (R6; log 1). -/
  inp : List HostEvent
  /-- The MODEL's own: responses given, oldest first; nothing in the machine reads it (R50; log 2). -/
  out : List Response
  deriving DecidableEq, Repr

/-- Reasons for the machine to stop with a fault: none. Every exceptional event of this hardware is a status of
the command's response, after which the block goes on (60_exceptions.md R120, R129), BOUNDS_FAULT included
(R125); log 11. -/
inductive Fault where
  deriving DecidableEq, Repr

/-- Reasons for the model to refuse. -/
inductive Refusal where
  /-- Raised only by an arm of `exec` that has no meaning yet (safe: the machine stops where the hardware goes
  on); no arm of this model raises it. -/
  | notModelled (mnemonic : String)
  deriving DecidableEq, Repr

/-- What a meaning answers. -/
abbrev Result := Host.Outcome State Fault Refusal

/-- The state right after reset (10_state.md R23): BV, FLT, CAP, CUR zero, buffer storage with nothing listed
(the spec leaves it unspecified and unobservable; log 4), no event and no response. -/
def State.reset : State where
  bv  := false
  cap := 0
  cur := 0
  buf := []
  flt := false
  inp := []
  out := []

end Sys2Proof.Machine
end

