-- ==== Sys2Proof/Machine/Ops.lean ====
section
/-! DEFINITION. The named operations over buffer storage and state: reading and writing bytes and bits
(20_memory.md R31, R32, R35), making a buffer (40_bitstream_builder.md R60), responding (30_encoding.md R50),
ending a command in an exceptional outcome (60_exceptions.md R120, one shared operation) and reset, the only
way back from the sticky fault (R130; 70_reset_and_hazards.md R140). -/

namespace Sys2Proof.Machine

open Sys2Proof.Config

/-! ### Buffer storage -/

/-- What a byte that is not listed reads as. After reset the spec leaves the bytes unspecified and unobservable
(10_state.md R23); every byte a command can see has been zero-filled. Marked DESIGN CHOICE; log 4. -/
def unwritten (_a : Nat) : Byte := 0x00

/-- `BUF[a]`. -/
def Memory.read : Memory → Nat → Byte
  | [], a => unwritten a
  | (b, x) :: rest, a => if b = a then x else Memory.read rest a

/-- A byte entered at its place in the rising order. -/
def Memory.insert : Memory → Nat → Byte → Memory
  | [], a, x => [(a, x)]
  | (b, y) :: rest, a, x =>
    if a < b then (a, x) :: (b, y) :: rest else (b, y) :: Memory.insert rest a x

/-- `BUF[a] <- x`, keeping the canonical form: the entry at `a` is dropped, and entered anew only when `x` is
not what an unlisted byte reads as. -/
def Memory.write (m : Memory) (a : Nat) (x : Byte) : Memory :=
  let rest := m.filter (fun c => c.1 ≠ a)
  if x = unwritten a then rest else Memory.insert rest a x

/-- `MemWrite(0, n, 0)`: the first `n` bytes become 0x00, which is what an unlisted byte reads as; the others
keep what they hold (00_scope.md R8; 20_memory.md R35). -/
def Memory.zeroFill (m : Memory) (n : Nat) : Memory := m.filter (fun c => n ≤ c.1)

/-- `MemRead(0, n)`: the first `n` bytes, lowest index first (20_memory.md R35). -/
def Memory.readBytes (m : Memory) (n : Nat) : List Byte := (List.range n).map (Memory.read m)

/-- Addresses rise strictly. -/
def Memory.rising : Memory → Bool
  | [] => true
  | [_] => true
  | (a, _) :: (b, y) :: rest => decide (a < b) && Memory.rising ((b, y) :: rest)

/-- The canonical form: addresses rise strictly and lie below `BUFBYTES`, and no entry is what an unlisted byte
reads as. -/
def Memory.wf (m : Memory) : Bool :=
  Memory.rising m && m.all (fun c => decide (c.1 < bufBytes) && decide (c.2 ≠ unwritten c.1))

/-- `BitRead(p)` = `BUF[p div 8][7 − (p mod 8)]` (20_memory.md R31). -/
def bitRead (m : Memory) (p : Nat) : Bool := (m.read (p / 8)).getLsbD (7 - p % 8)

/-- The byte that `BitWrite(p, b)` stores over `x`: R32's formula, and its `APPEND_MODE = or` variant. -/
def bitInByte (mode : AppendMode) (x : Byte) (p : Nat) (b : Bool) : Byte :=
  let one : Byte := (BitVec.ofBool b).setWidth 8 <<< (7 - p % 8)
  match mode with
  | .overwrite => (x &&& ~~~((0x80#8) >>> (p % 8))) ||| one
  | .orIn      => x ||| one

/-- `BitWrite(p, b)` (20_memory.md R32); `mode` is `overwrite` for every command but APPEND. -/
def bitWrite (mode : AppendMode) (m : Memory) (p : Nat) (b : Bool) : Memory :=
  m.write (p / 8) (bitInByte mode (m.read (p / 8)) p b)

/-- `NB` = `ceil(CAP/8)` = `(CAP + 7) div 8` (10_state.md R17). -/
def nbOf (cap : Half) : Nat := (cap.toNat + 7) / 8

/-! ### State updates -/

/-- `NB` of the present buffer. -/
def State.nb (s : State) : Nat := nbOf s.cap

/-- The response `r` is given. -/
def State.answer (s : State) (r : Response) : State := { s with out := s.out ++ [r] }

/-- `FLT <- 1`. -/
def State.latchFault (s : State) : State := { s with flt := true }

/-- `BV <- 0`: no buffer exists any more; nothing else changes (60_exceptions.md R120, R129). -/
def State.dropBuffer (s : State) : State := { s with bv := false }

/-- The buffer's bits become `m`. -/
def State.withBuf (s : State) (m : Memory) : State := { s with buf := m }

/-- `CUR <- c`. -/
def State.withCur (s : State) (c : Half) : State := { s with cur := c }

/-- A new zero-filled buffer of capacity `cap` in place of any old one: CREATE's four assignments (R60). Bytes
from `NB` on are out of every command's reach and keep what they hold (10_state.md R19; log 5). -/
def State.newBuffer (s : State) (cap : Half) : State :=
  { s with cap := cap, cur := 0, bv := true, buf := s.buf.zeroFill (nbOf cap) }

/-- The block after the reset input (70_reset_and_hazards.md R140): BV, FLT, CAP, CUR and buffer storage as in
`State.reset`; the host's own lists are not the block's and stay. -/
def State.resetBlock (s : State) : State := { State.reset with inp := s.inp, out := s.out }

/-! ### Responses and outcomes -/

/-- The 4-bit code of a status (30_encoding.md R51). -/
def Status.code : Status → BitVec 4
  | .ok                   => 0
  | .checkDigitMismatch   => 1
  | .unsupportedSymbology => 2
  | .illegalCommand       => 3
  | .noBuffer             => 4
  | .boundsFault          => 5
  | .faulted              => 6

/-- `LEN`, the number of bytes of `DATA` (R50). -/
def Response.len (r : Response) : Half := BitVec.ofNat 16 r.data.length

/-- A 16-bit scalar of a response (`VAL`, `LEN`) on a byte-wide transport, most significant byte first (R46). -/
def scalarBytes (x : Half) : List Byte := [x.extractLsb' 8 8, x.extractLsb' 0 8]

/-- `respond(ST, VAL, DATA)` (00_scope.md R8; 30_encoding.md R50). -/
def respond (st : Status) (val : Half) (data : List Byte) (s : State) : Result :=
  .next (s.answer ⟨st, val, data⟩)

/-- What an outcome does to the state (60_exceptions.md R120): the two reported outcomes clear BV, the sticky
fault sets FLT, a refusal changes nothing. -/
def outcomeEffect (st : Status) (s : State) : State :=
  match st with
  | .ok => s
  | .checkDigitMismatch | .unsupportedSymbology => s.dropBuffer
  | .illegalCommand | .noBuffer | .faulted => s
  | .boundsFault => s.latchFault

/-- `raise <Outcome>(info)`, the block's way of taking an exception (00_scope.md R8; 60_exceptions.md R120,
R129): the outcome's state change and a response with its code, `VAL` = `info` and no data. Control goes
nowhere: there is no vector, nothing is saved, and the next command is the host's choice (R129, R131). -/
def raise (st : Status) (info : Half) (s : State) : Result :=
  respond st info [] (outcomeEffect st s)

end Sys2Proof.Machine
end

