-- ==== Sys2Proof/Machine/Flags.lean ====
section
/-! DEFINITION. The two status bits. The block has no condition codes (10_state.md R12): BV and FLT are all there
is, and these are the tests on them that begin every command (40_bitstream_builder.md R68; 60_exceptions.md
R124, R126, R128). -/

namespace Sys2Proof.Machine

/-- The first test of every command: FAULTED while FLT = 1 (R126, R128 item 1). -/
def unlessFaulted (s : State) (k : Result) : Result :=
  if s.flt = true then raise .faulted 0 s else k

/-- The test of the six buffer commands: NO_BUFFER while BV = 0 (R124, R128 item 3). -/
def withBuffer (s : State) (k : Result) : Result :=
  if s.bv = true then k else raise .noBuffer 0 s

/-- An illegal word (R123), after the test of FLT (30_encoding.md R57). -/
def refuseIllegal (s : State) : Result :=
  unlessFaulted s (raise .illegalCommand 0 s)

end Sys2Proof.Machine
end

