-- ==== Sys2Proof/Machine/Operands.lean ====
section
/-! DEFINITION. Operand forms: the bounds check (20_memory.md R38), the bit field written most significant bit
first (R33), the append at the cursor in its two cases (40_bitstream_builder.md R61, R62), the bits read back as
characters (R67). -/

namespace Sys2Proof.Machine

open Sys2Proof.Config

/-- The range of `n` positions from `start` lies below the capacity, the sum formed without wrap-around
(R38). -/
def rangeFits (s : State) (start n : Nat) : Bool := decide (start + n ≤ s.cap.toNat)

/-- The low `n` bits of `v` written from position `p` on, `v[n−1]` first (R33): position `p + k` receives
`v[n−1−k]`. -/
def writeField (mode : AppendMode) (v : VWord) : Nat → Nat → Memory → Memory
  | _, 0, m => m
  | p, n + 1, m => writeField mode v (p + 1) n (bitWrite mode m p (v.getLsbD n))

/-- The positions an APPEND of width `w` at cursor `c` passes over before it writes (R62): `w − 64` of them under
`WIDE_SKIP = leading`, none under `trailing`; none for a width of at most 64. -/
def skipBefore (skip : WideSkip) (w : Nat) : Nat :=
  match skip with
  | .leading  => w - 64
  | .trailing => 0

/-- The assignments of APPEND once its bounds check has passed: at most 64 bits written, the cursor moved by the
whole width (R61, R62). -/
def State.appendBits (mode : AppendMode) (skip : WideSkip) (value : VWord) (width : Half) (s : State) : State :=
  (s.withBuf (writeField mode value (s.cur.toNat + skipBefore skip width.toNat) (min width.toNat 64) s.buf)).withCur
    (s.cur + width)

/-- The character of a bit, `'0'` = 0x30 or `'1'` = 0x31 (R67). -/
def bitChar (b : Bool) : Byte := 0x30 ||| (BitVec.ofBool b).setWidth 8

/-- The characters of positions 0 to `n − 1`, first position first (R67). -/
def bitString (m : Memory) (n : Nat) : List Byte :=
  (List.range n).map (fun p => bitChar (bitRead m p))

end Sys2Proof.Machine
end

