-- ==== Sys2Proof/Machine/Builder.lean ====
section
/-! DEFINITION. The seven bitstream builder commands (40_bitstream_builder.md). -/

namespace Sys2Proof.Machine

/-- CREATE `capacityBits` (R60): a new zero-filled buffer, whatever was there before. -/
def execCreate (capacityBits : Half) (s : State) : Result :=
  unlessFaulted s (respond .ok 0 [] (s.newBuffer capacityBits))

/-- APPEND `value`, `width` (R61 up to 64 bits, R62 above). -/
def execAppend (value : VWord) (width : Half) (s : State) : Result :=
  unlessFaulted s (withBuffer s (
    if rangeFits s s.cur.toNat width.toNat = true
    then respond .ok 0 [] (s.appendBits appendMode wideSkip value width)
    else raise .boundsFault 0 s))

/-- SETBITS `value`, `startBit`, `width` (R63): overwrites under every `APPEND_MODE`, and neither reads nor moves
the cursor. The width test repeats R52 item 4, which the decoder has made already. -/
def execSetbits (value : VWord) (startBit width : Half) (s : State) : Result :=
  unlessFaulted s (
    if width.toNat ≤ 64
    then withBuffer s (
      if rangeFits s startBit.toNat width.toNat = true
      then respond .ok 0 [] (s.withBuf (writeField .overwrite value startBit.toNat width.toNat s.buf))
      else raise .boundsFault 0 s)
    else raise .illegalCommand 0 s)

/-- SETBIT `index`, `bit` (R64). -/
def execSetbit (index : Half) (bit : Bool) (s : State) : Result :=
  unlessFaulted s (withBuffer s (
    if rangeFits s index.toNat 1 = true
    then respond .ok 0 [] (s.withBuf (bitWrite .overwrite s.buf index.toNat bit))
    else raise .boundsFault 0 s))

/-- RAWBYTES (R65): all `NB` bytes, by the capacity and not the cursor. -/
def execRawbytes (s : State) : Result :=
  unlessFaulted s (withBuffer s (
    respond .ok (BitVec.ofNat 16 s.nb) (s.buf.readBytes s.nb) s))

/-- BITCOUNT (R66): the cursor. -/
def execBitcount (s : State) : Result :=
  unlessFaulted s (withBuffer s (respond .ok s.cur [] s))

/-- TOBITSTR (R67): positions 0 to `CUR − 1` as characters. -/
def execTobitstr (s : State) : Result :=
  unlessFaulted s (withBuffer s (respond .ok s.cur (bitString s.buf s.cur.toNat) s))

end Sys2Proof.Machine
end

