-- ==== Sys2Proof/Machine/Encoder.lean ====
section
/-! DEFINITION. The symbol encoder (41_symbol_encoder.md): digits, checksum, expected digit, table choice, the
seventeen fields, the pattern, the display digits, and the three ENCODE commands. The pure functions take the
tables and the open parameters as arguments (R86; 93_implementation_defined.md GK1). -/

namespace Sys2Proof.Machine

open Sys2Proof.Config

/-- The digit sequence `d[0] .. d[12]`, most significant first: thirteen values 0 to 9 (R81). -/
abbrev Digits := List Nat

/-- `d[i]`. -/
def digit (d : Digits) (i : Nat) : Nat := d.getD i 0

/-- `k` rounds of R81's loop: the remainder is put in front of the digits found so far, the quotient goes on. -/
def digitsLoop : Nat → Nat → Digits → Digits
  | 0, _, found => found
  | k + 1, t, found => digitsLoop k (t / 10) (t % 10 :: found)

/-- `digits(n)` (R81): thirteen rounds; what is left of the quotient is dropped. -/
def digits (n : Nat) : Digits := digitsLoop ndig n []

/-- The weighted sum: weight 3 at odd indices, 1 at even ones, the check digit included (R82). -/
def weightedSum (d : Digits) : Nat :=
  ((List.range ndig).map (fun i => digit d i * (if i % 2 = 1 then 3 else 1))).sum

/-- `checksum(d)` (R82). -/
def checksum (d : Digits) : Nat := weightedSum d % 10

/-- `expected(d)` = `(10 − (chk − d[12])) mod 10`, the difference signed (R84). -/
def expected (d : Digits) : Nat :=
  ((10 - ((checksum d : Int) - (digit d 12 : Int))) % 10).toNat

/-- A table's entry for a digit. -/
def tableEntry (t : Vector (BitVec 7) 10) (x : Nat) : BitVec 7 := t[x]?.getD 0

/-- `PAR[f][k]` (R87). -/
def parity (T : Tables) (f k : Nat) : Bool :=
  match T.par[f]? with
  | some row => row[k]?.getD false
  | none => false

/-- `leftpat(d, j)` for `1 ≤ j ≤ 6`: the G table where the parity matrix says 1, else the L table (R85). -/
def leftPat (T : Tables) (d : Digits) (j : Nat) : BitVec 7 :=
  if parity T (digit d 0) (j - 1) = true then tableEntry T.gtab (digit d j) else tableEntry T.ltab (digit d j)

/-- `rightpat(d, j)` for `7 ≤ j ≤ 12` (R85). -/
def rightPat (T : Tables) (d : Digits) (j : Nat) : BitVec 7 := tableEntry T.rtab (digit d j)

/-- The operands of one append of R90. -/
structure PatternField where
  value : VWord
  width : Half
  deriving DecidableEq, Repr

/-- A quiet zone, nine zero bits (R88). -/
def quietZone : PatternField := ⟨0, 9⟩

/-- The start and end guard, `101` (R88). -/
def guardBars : PatternField := ⟨0b101, 3⟩

/-- The center guard, `01010` (R88). -/
def centerBars : PatternField := ⟨0b01010, 5⟩

/-- A digit's seven bits. -/
def digitBars (p : BitVec 7) : PatternField := ⟨p.setWidth 64, 7⟩

/-- The seventeen appends of R90, in order. -/
def patternFields (T : Tables) (d : Digits) : List PatternField :=
  [quietZone, guardBars,
   digitBars (leftPat T d 1), digitBars (leftPat T d 2), digitBars (leftPat T d 3),
   digitBars (leftPat T d 4), digitBars (leftPat T d 5), digitBars (leftPat T d 6),
   centerBars,
   digitBars (rightPat T d 7), digitBars (rightPat T d 8), digitBars (rightPat T d 9),
   digitBars (rightPat T d 10), digitBars (rightPat T d 11), digitBars (rightPat T d 12),
   guardBars, quietZone]

/-- The bits of a field in the order they enter the buffer, most significant first (R33). -/
def fieldBits (f : PatternField) : List Bool :=
  (List.range f.width.toNat).map (fun k => f.value.getLsbD (f.width.toNat - 1 - k))

/-- `pattern(d)`: the 113 bits, the seventeen fields one after another (R89, R91). -/
def pattern (T : Tables) (d : Digits) : List Bool := (patternFields T d).flatMap fieldBits

/-- The buffer that a successful ENCODE leaves: made as by CREATE 113, then the seventeen appends (R90). -/
def State.encodeBuffer (mode : AppendMode) (skip : WideSkip) (T : Tables) (d : Digits) (s : State) : State :=
  (patternFields T d).foldl (fun t f => t.appendBits mode skip f.value f.width)
    (s.newBuffer (BitVec.ofNat 16 patBits))

/-- `display(d)`: the digits, the leading one left out when it is zero (R92). -/
def display (d : Digits) : Digits := if digit d 0 = 0 then d.drop 1 else d

/-- The display digits as response data, one byte a digit, the digit's value (R93). -/
def displayBytes (d : Digits) : List Byte := (display d).map (BitVec.ofNat 8)

/-- ENCODE `number`, `policy` with `SYM` = 0 (R80): under Validate a nonzero checksum is CHECK_DIGIT_MISMATCH with
the expected digit (R83); otherwise the pattern of the digits as given replaces any buffer (R90, R95). -/
def execEncode (number : VWord) (policy : Policy) (s : State) : Result :=
  unlessFaulted s (
    if policy = .validate ∧ checksum (digits number.toNat) ≠ 0
    then raise .checkDigitMismatch (BitVec.ofNat 16 (expected (digits number.toNat))) s
    else respond .ok (BitVec.ofNat 16 patBits) (displayBytes (digits number.toNat))
      (s.encodeBuffer appendMode wideSkip tables (digits number.toNat)))

/-- ENCODE with `SYM` = 1 (R94): UNSUPPORTED_SYMBOLOGY, number and policy not looked at. -/
def execEncodeU1 (_number : VWord) (_policy : Policy) (s : State) : Result :=
  unlessFaulted s (raise .unsupportedSymbology 0 s)

/-- ENCODE with `SYM` = 2 (R94): UNSUPPORTED_SYMBOLOGY, number and policy not looked at. -/
def execEncodeU2 (_number : VWord) (_policy : Policy) (s : State) : Result :=
  unlessFaulted s (raise .unsupportedSymbology 0 s)

end Sys2Proof.Machine
end

