-- ==== Sys2Proof/Machine/Dispatch.lean ====
section
/-! DEFINITION. One arm per command (30_encoding.md R49, R57 step 3). -/

namespace Sys2Proof.Machine

def exec (i : Instr) (s : State) : Host.Outcome State Fault Refusal :=
  match i with
  | .create capacityBits => Sys2Proof.Machine.execCreate capacityBits s
  | .append value width => Sys2Proof.Machine.execAppend value width s
  | .setbits value startBit width => Sys2Proof.Machine.execSetbits value startBit width s
  | .setbit index bit => Sys2Proof.Machine.execSetbit index bit s
  | .rawbytes => Sys2Proof.Machine.execRawbytes s
  | .bitcount => Sys2Proof.Machine.execBitcount s
  | .tobitstr => Sys2Proof.Machine.execTobitstr s
  | .encode number policy => Sys2Proof.Machine.execEncode number policy s
  | .encodeU1 number policy => Sys2Proof.Machine.execEncodeU1 number policy s
  | .encodeU2 number policy => Sys2Proof.Machine.execEncodeU2 number policy s

end Sys2Proof.Machine
end

