-- ==== Sys2Proof/Machine/Command.lean ====
section
/-! DEFINITION. What one host event does: a command word is decoded and executed or refused (30_encoding.md R57),
the reset input resets (70_reset_and_hazards.md R140), and with no event the block waits. Also how a word is put
on the command port. -/

namespace Sys2Proof.Machine

/-- The next host event is taken; the rest stay to come. -/
def State.takeEvent (s : State) (rest : List HostEvent) : State := { s with inp := rest }

/-- A command word (R57): FAULTED while FLT = 1, whatever the word; ILLEGAL_COMMAND for an illegal word; otherwise
the command of the matching row, whose meaning repeats the test of FLT. -/
def runWord (word : Cmd) (s : State) : Result :=
  match decode word with
  | .ok i => exec i s
  | .error _ => refuseIllegal s

/-- One host event (00_scope.md R6). -/
def runEvent (e : HostEvent) (s : State) : Result :=
  match e with
  | .command word => runWord word s
  | .reset => .next s.resetBlock

/-- With no event the block waits and nothing changes (70_reset_and_hazards.md R140, "after reset the block waits
for a command"; R153). -/
def waitForHost (s : State) : Result := .next s

/-- The word is the next one on the command port. -/
def State.offerWord (s : State) (word : Cmd) : State := { s with inp := .command word :: s.inp }

end Sys2Proof.Machine
end

