-- ==== Sys2Proof/Machine/Step.lean ====
section
/-! DEFINITION. One step (00_scope.md R6): the next host event, carried out completely. -/

namespace Sys2Proof.Machine

/-- One step: the host's next event, or waiting when there is none. -/
def step (s : State) : Host.Outcome State Fault Refusal :=
  match s.inp with
  | [] => waitForHost s
  | e :: rest => runEvent e (s.takeEvent rest)

/-- `s` with the word of these bits next on the command port, where `step` takes it (log 1). -/
def State.withFetchWord (s : State) (nbits w : Nat) : State := s.offerWord (tableWord nbits w)

end Sys2Proof.Machine
end

