-- ==== Sys2Proof/Safety.lean ====
section
/-! DEFINITION. The terms in which claims speak of runs: the invariant of 10_state.md R18, what two states must share
for no command to tell them apart (R19, R23), the outcome the priority list gives a command (60_exceptions.md R128),
and the positions a command writes. -/

namespace Sys2Proof.Machine

/-- What holds at every point between commands: buffer storage is in canonical form and, when BV = 1, the cursor is
within the capacity and the padding of the last byte is zero (R18 items 1 and 2). -/
def State.Inv (s : State) : Prop :=
  s.buf.wf = true ∧
  (s.bv = true →
    s.cur.toNat ≤ s.cap.toNat ∧
    ∀ p, s.cap.toNat ≤ p → p < 8 * s.nb → bitRead s.buf p = false)

/-- Two states that differ only in what the spec calls unobservable: CAP, CUR and buffer storage when BV = 0, and
the bytes from NB on when BV = 1 (10_state.md R13, R14, R19, R23). -/
def State.Agree (s t : State) : Prop :=
  s.inp = t.inp ∧ s.out = t.out ∧ s.flt = t.flt ∧ s.bv = t.bv ∧
  (s.bv = true →
    s.cap = t.cap ∧ s.cur = t.cur ∧ ∀ a, a < s.nb → s.buf.read a = t.buf.read a)

/-- The condition under which the bounds check refuses a command (20_memory.md R38). -/
def exceedsCapacity (i : Instr) (s : State) : Bool :=
  match i with
  | .append _ width => decide (s.cap.toNat < s.cur.toNat + width.toNat)
  | .setbits _ startBit width => decide (s.cap.toNat < startBit.toNat + width.toNat)
  | .setbit index _ => decide (s.cap.toNat < index.toNat + 1)
  | .create _ | .rawbytes | .bitcount | .tobitstr | .encode _ _ | .encodeU1 _ _ | .encodeU2 _ _ => false

/-- The six commands that need a buffer (60_exceptions.md R124). -/
def needsBuffer : Instr → Bool
  | .append _ _ | .setbits _ _ _ | .setbit _ _ | .rawbytes | .bitcount | .tobitstr => true
  | .create _ | .encode _ _ | .encodeU1 _ _ | .encodeU2 _ _ => false

/-- The status a legal command gets from a block that is not faulted: items 3 to 7 of the priority list
(60_exceptions.md R128). -/
def commandStatus (i : Instr) (s : State) : Status :=
  if needsBuffer i = true ∧ s.bv = false then .noBuffer
  else if exceedsCapacity i s = true then .boundsFault
  else match i with
    | .encodeU1 _ _ | .encodeU2 _ _ => .unsupportedSymbology
    | .encode number policy =>
      if policy = .validate ∧ checksum (digits number.toNat) ≠ 0 then .checkDigitMismatch else .ok
    | .create _ | .append _ _ | .setbits _ _ _ | .setbit _ _ | .rawbytes | .bitcount | .tobitstr => .ok

/-- The status a command word gets: the whole priority list (60_exceptions.md R128). -/
def wordStatus (word : Cmd) (s : State) : Status :=
  if s.flt = true then .faulted
  else match decode word with
    | .error _ => .illegalCommand
    | .ok i => commandStatus i s

/-- The commands that make a new buffer or discard the old one. -/
def replacesBuffer : Instr → Bool
  | .create _ | .encode _ _ | .encodeU1 _ _ | .encodeU2 _ _ => true
  | .append _ _ | .setbits _ _ _ | .setbit _ _ | .rawbytes | .bitcount | .tobitstr => false

/-- The bit positions a builder command writes when it succeeds in state `s`: the written 64 at most of an APPEND
(the positions it skips are not written, R62), the range of a SETBITS, the one position of a SETBIT. -/
def writesPosition (i : Instr) (s : State) (p : Nat) : Prop :=
  match i with
  | .append _ width =>
    s.cur.toNat + (width.toNat - 64) ≤ p ∧ p < s.cur.toNat + width.toNat
  | .setbits _ startBit width => startBit.toNat ≤ p ∧ p < startBit.toNat + width.toNat
  | .setbit index _ => p = index.toNat
  | .create _ | .rawbytes | .bitcount | .tobitstr | .encode _ _ | .encodeU1 _ _ | .encodeU2 _ _ => False

/-- Commands executed one after another (10_state.md R11: "programs" are command sequences). -/
def execAll : List Instr → State → Result
  | [], s => .next s
  | i :: rest, s =>
    match exec i s with
    | .next t => execAll rest t
    | .fault r => .fault r
    | .refused r => .refused r

/-- No command of the sequence, executed from `s`, makes or discards a buffer or writes position `p`. -/
def leavesPosition (p : Nat) : List Instr → State → Prop
  | [], _ => True
  | i :: rest, s =>
    replacesBuffer i = false ∧ ¬ writesPosition i s p ∧
      ∀ t, exec i s = .next t → leavesPosition p rest t

/-- The digits with the check digit replaced (41_symbol_encoder.md R84). -/
def withCheckDigit (d : Digits) (x : Nat) : Digits := d.set 12 x

/-- A digit sequence: thirteen values from 0 to 9 (00_scope.md R9). -/
def IsDigits (d : Digits) : Prop := d.length = 13 ∧ ∀ x ∈ d, x < 10

end Sys2Proof.Machine
end

