-- ==== Sys2Proof/Certificates/Slice0/Obligations.lean ====
section
/-! DEFINITION. The statements for the provers. A response is written ⟨ST, VAL, DATA⟩; a statement's state
hypotheses are on FLT, BV, CAP, CUR alone. Every builder and encoder statement names all seven fields of the next
state, so each is also its commands' frame. -/

open Sys2Proof Sys2Proof.Machine Sys2Proof.Config

/-! ### Encoding -/

/-- A command word on the port that decodes is executed: step is exec of the decoded command once the word is taken
from the port (00_scope.md R6; 30_encoding.md R57 step 3). -/
def Obligations.StepRunsDecodedCommand : Prop :=
  ∀ (s : State) (word : Cmd) (rest : List HostEvent) (i : Instr),
    s.inp = .command word :: rest → decode word = .ok i → step s = exec i { s with inp := rest }

/-- Words of 95_test_vectors.md (S3, E2 and the lines of 2.3) decode to the commands they stand for, one at least for
each command. -/
def Obligations.VectorWordsDecode : Prop :=
  decode 0x10000000001400000000000000000000 = .ok (.create 20) ∧
  decode 0x20000000000000030000000000000005 = .ok (.append 0b101 3) ∧
  decode 0x30000000000600040000000000000006 = .ok (.setbits 0b0110 6 4) ∧
  decode 0x41000000001300000000000000000000 = .ok (.setbit 19 true) ∧
  decode 0x50000000000000000000000000000000 = .ok .rawbytes ∧
  decode 0x60000000000000000000000000000000 = .ok .bitcount ∧
  decode 0x70000000000000000000000000000000 = .ok .tobitstr ∧
  decode 0x8400000000000000000003A4CEEFADAA = .ok (.encode 4006381333930 .ignore) ∧
  decode 0x8100000000000000000003A4CEEFADAB = .ok (.encodeU1 4006381333931 .validate) ∧
  decode 0x8600000000000000000003A4CEEFADAA = .ok (.encodeU2 4006381333930 .ignore)

/-- Decoding a well-formed command's word gives the command back, with every operand at every value. -/
def Obligations.DecodeOfEncode : Prop :=
  ∀ i : Instr, i.wf = true → decode (encode i) = .ok i

/-- A legal word is the encoding of the command it decodes to, and that command is well-formed: each command has one
word, and no legal word carries a bit its command does not. -/
def Obligations.EncodeOfDecode : Prop :=
  ∀ (word : Cmd) (i : Instr), decode word = .ok i → encode i = word ∧ i.wf = true

/-- A well-formed command's word, given by its bits, decodes to it, and put next on the command port it is what the very
next step executes, in the state as it stood (00_scope.md R6; log 1). -/
def Obligations.OfferedWordRunsItsCommand : Prop :=
  ∀ (i : Instr) (s : State), i.wf = true →
    decodeTableWord 128 (encode i).toNat = some i ∧
    step (s.withFetchWord 128 (encode i).toNat) = exec i s

/-- The opcode map: a word decodes to a command of a row exactly when it matches the row and, for SETBITS, its `W` is
at most 64 (30_encoding.md R49). -/
def Obligations.OpcodeMapSelectsCommand : Prop :=
  ∀ (word : Cmd) (name : String),
    (∃ i, decode word = .ok i ∧ i.mnemonic = name) ↔
    (∃ row ∈ opcodeRows, row.mnemonic = name ∧ word &&& row.mask = row.pattern ∧
      (name = "SETBITS" → (word.extractLsb' 64 16).toNat ≤ 64))

/-- A word is illegal exactly under the five conditions of R52, and while FLT = 0 it is answered ILLEGAL_COMMAND and
changes no state; that answer's code is 3 (30_encoding.md R52; 60_exceptions.md R123). -/
def Obligations.IllegalWordsAreRefused : Prop :=
  Status.code .illegalCommand = 3 ∧
  ∀ word : Cmd,
    ((∃ e, decode word = .error e) ↔
      let op  := (word.extractLsb' 124 4).toNat
      let mod := word.extractLsb' 120 4
      let rsv := word.extractLsb' 96 24
      let a   := word.extractLsb' 80 16
      let w   := word.extractLsb' 64 16
      let v   := word.extractLsb' 0 64
      (op = 0 ∨ 9 ≤ op) ∨
      rsv ≠ 0 ∨
      (((op = 5 ∨ op = 6 ∨ op = 7) ∧ (mod ≠ 0 ∨ a ≠ 0 ∨ w ≠ 0 ∨ v ≠ 0)) ∨
        (op = 1 ∧ (mod ≠ 0 ∨ w ≠ 0 ∨ v ≠ 0)) ∨
        (op = 2 ∧ (mod ≠ 0 ∨ a ≠ 0)) ∨
        (op = 3 ∧ mod ≠ 0) ∨
        (op = 4 ∧ (mod.extractLsb' 1 3 ≠ 0 ∨ w ≠ 0 ∨ v ≠ 0)) ∨
        (op = 8 ∧ (mod.getLsbD 3 = true ∨ a ≠ 0 ∨ w ≠ 0))) ∨
      (op = 3 ∧ 64 < w.toNat) ∨
      (op = 8 ∧ mod.extractLsb' 0 2 = 3)) ∧
    (∀ (s : State) (rest : List HostEvent) (e : Illegal),
      s.inp = .command word :: rest → s.flt = false → decode word = .error e →
      step s = .next { s with inp := rest, out := s.out ++ [⟨.illegalCommand, 0, []⟩] })

/-- Byte transport: a word is sent as 16 bytes, byte `i` holding `CMD[127−8i : 120−8i]`, and the receiver's word is
the sender's; a response's scalar is sent high byte first (30_encoding.md R46). -/
def Obligations.BytesCarryMostSignificantFirst : Prop :=
  (∀ word : Cmd,
    (commandBytes word).length = 16 ∧
    (∀ i j, i < 16 → j < 8 → ((commandBytes word).getD i 0).getLsbD j = word.getLsbD (120 - 8 * i + j)) ∧
    commandOfBytes (commandBytes word) = some word) ∧
  (∀ x : Half, ∃ hi lo : Byte, scalarBytes x = [hi, lo] ∧ x.toNat = 256 * hi.toNat + lo.toNat)

/-! ### Outcomes -/

/-- While FLT = 1 every command word, legal or not, is answered FAULTED and changes nothing, so the next one is
too (60_exceptions.md R126). -/
def Obligations.FaultedRefusesEveryWord : Prop :=
  Status.code .faulted = 6 ∧
  ∀ (s : State) (word : Cmd) (rest : List HostEvent),
    s.inp = .command word :: rest → s.flt = true →
    step s = .next { s with inp := rest, out := s.out ++ [⟨.faulted, 0, []⟩] }

/-- NO_BUFFER: the six buffer commands, when FLT = 0, the word is legal and BV = 0; no state changes; no other command
and no other state gives it (60_exceptions.md R124). -/
def Obligations.NoBufferRefusal : Prop :=
  Status.code .noBuffer = 4 ∧
  (∀ (i : Instr) (s : State), i.wf = true → s.flt = false → s.bv = false →
    (i.mnemonic ∈ ["APPEND", "SETBITS", "SETBIT", "RAWBYTES", "BITCOUNT", "TOBITSTR"]) →
    exec i s = .next { s with out := s.out ++ [⟨.noBuffer, 0, []⟩] }) ∧
  (∀ (i : Instr) (s t : State) (r : Response), exec i s = .next t → t.out = s.out ++ [r] → r.st = .noBuffer →
    i.wf = true ∧ s.flt = false ∧ s.bv = false ∧
    i.mnemonic ∈ ["APPEND", "SETBITS", "SETBIT", "RAWBYTES", "BITCOUNT", "TOBITSTR"])

/-- BOUNDS_FAULT: APPEND, SETBITS and SETBIT whose whole range does not fit the capacity set FLT and do nothing else;
no other command and no other state gives it (60_exceptions.md R125). -/
def Obligations.BoundsFaultLatches : Prop :=
  Status.code .boundsFault = 5 ∧
  (∀ (value : VWord) (width : Half) (s : State), s.flt = false → s.bv = true →
    s.cap.toNat < s.cur.toNat + width.toNat →
    exec (.append value width) s = .next { s with flt := true, out := s.out ++ [⟨.boundsFault, 0, []⟩] }) ∧
  (∀ (value : VWord) (startBit width : Half) (s : State), s.flt = false → s.bv = true → width.toNat ≤ 64 →
    s.cap.toNat < startBit.toNat + width.toNat →
    exec (.setbits value startBit width) s =
      .next { s with flt := true, out := s.out ++ [⟨.boundsFault, 0, []⟩] }) ∧
  (∀ (index : Half) (bit : Bool) (s : State), s.flt = false → s.bv = true → s.cap.toNat ≤ index.toNat →
    exec (.setbit index bit) s = .next { s with flt := true, out := s.out ++ [⟨.boundsFault, 0, []⟩] }) ∧
  (∀ (i : Instr) (s t : State) (r : Response), exec i s = .next t → t.out = s.out ++ [r] → r.st = .boundsFault →
    i.wf = true ∧ s.flt = false ∧ s.bv = true ∧ exceedsCapacity i s = true)

/-- CHECK_DIGIT_MISMATCH: ENCODE of the implemented symbology under Validate with a nonzero checksum; VAL is the
expected digit, BV is cleared, nothing else changes; nothing else gives it (60_exceptions.md R121; that CAP, CUR and BUF
stay is R120's and R129's "clear `BV` and do nothing else"). -/
def Obligations.MismatchReportsExpectedDigit : Prop :=
  Status.code .checkDigitMismatch = 1 ∧
  (∀ (number : VWord) (s : State), s.flt = false → checksum (digits number.toNat) ≠ 0 →
    expected (digits number.toNat) ≤ 9 ∧
    exec (.encode number .validate) s = .next { s with
      bv := false,
      out := s.out ++ [⟨.checkDigitMismatch, BitVec.ofNat 16 (expected (digits number.toNat)), []⟩] }) ∧
  (∀ (i : Instr) (s t : State) (r : Response), exec i s = .next t → t.out = s.out ++ [r] →
    r.st = .checkDigitMismatch →
    ∃ number, i = .encode number .validate ∧ s.flt = false ∧ checksum (digits number.toNat) ≠ 0) ∧
  expected (digits 4006381333930) = 1

/-- UNSUPPORTED_SYMBOLOGY: ENCODE with `SYM` = 1 or 2, whatever the number and the policy, clears BV and does nothing
else; nothing else gives it (60_exceptions.md R122; 41_symbol_encoder.md R94; that CAP, CUR and BUF stay is R120's and
R129's "clear `BV` and do nothing else"). -/
def Obligations.UnsupportedSymbologyOutcome : Prop :=
  Status.code .unsupportedSymbology = 2 ∧
  (∀ (number : VWord) (policy : Policy) (s : State), s.flt = false →
    exec (.encodeU1 number policy) s =
      .next { s with bv := false, out := s.out ++ [⟨.unsupportedSymbology, 0, []⟩] } ∧
    exec (.encodeU2 number policy) s =
      .next { s with bv := false, out := s.out ++ [⟨.unsupportedSymbology, 0, []⟩] }) ∧
  (∀ (i : Instr) (s t : State) (r : Response), exec i s = .next t → t.out = s.out ++ [r] →
    r.st = .unsupportedSymbology →
    s.flt = false ∧ ∃ number policy, i = .encodeU1 number policy ∨ i = .encodeU2 number policy)

/-- The priority list: a command word's status is the first item of R128 that applies. -/
def Obligations.StatusByPriority : Prop :=
  ∀ (s : State) (word : Cmd) (rest : List HostEvent), s.inp = .command word :: rest →
    ∃ t r, step s = .next t ∧ t.out = s.out ++ [r] ∧ r.st = wordStatus word s

/-- Every command is answered by exactly one response; LEN counts DATA and fits 16 bits; a status other than OK has no
data, and no value but a mismatch's, which is the expected digit; VAL is 0 and DATA empty where the command's rule
names none (30_encoding.md R50). The statuses have the codes of R51, and no other code is produced. -/
def Obligations.OneResponsePerCommand : Prop :=
  (Status.code .ok = 0 ∧ Status.code .checkDigitMismatch = 1 ∧ Status.code .unsupportedSymbology = 2 ∧
    Status.code .illegalCommand = 3 ∧ Status.code .noBuffer = 4 ∧ Status.code .boundsFault = 5 ∧
    Status.code .faulted = 6 ∧ ∀ st : Status, st.code.toNat ≤ 6) ∧
  ∀ (s : State) (word : Cmd) (rest : List HostEvent), s.inp = .command word :: rest →
    ∃ t r, step s = .next t ∧ t.inp = rest ∧ t.out = s.out ++ [r] ∧
      r.data.length ≤ 65535 ∧ r.len.toNat = r.data.length ∧
      (r.st ≠ .ok → r.data = [] ∧ (r.st ≠ .checkDigitMismatch → r.val = 0)) ∧
      (∀ i, decode word = .ok i →
        (i.mnemonic ∈ ["CREATE", "APPEND", "SETBITS", "SETBIT"] → r.val = 0 ∧ r.data = []) ∧
        (i.mnemonic = "BITCOUNT" → r.data = []) ∧
        (∀ number policy, i = .encode number policy → r.st = .checkDigitMismatch →
          r.val = BitVec.ofNat 16 (expected (digits number.toNat))))

/-- Every step answers: no state makes the machine fault or refuse (00_scope.md R6, step is total;
70_reset_and_hazards.md R152, a response always comes). That a step with no event is a next state (log 3), and that
BOUNDS_FAULT is one and not the model's fault outcome (log 11), are the model's choices. -/
def Obligations.EveryStepCompletes : Prop :=
  ∀ s : State, ∃ t, step s = .next t

/-- FLT is set by BOUNDS_FAULT and nothing else, and cleared only by reset; while it is set every word is refused; it is 0 after
reset (10_state.md R16). -/
def Obligations.FaultBitIsSticky : Prop :=
  State.reset.flt = false ∧
  (∀ s t : State, step s = .next t → s.flt = true → t.flt = false → ∃ rest, s.inp = .reset :: rest) ∧
  (∀ s t : State, step s = .next t → s.flt = false →
    (t.flt = true ↔ ∃ r, t.out = s.out ++ [r] ∧ r.st = .boundsFault)) ∧
  (∀ (s : State) (rest : List HostEvent), s.inp = .reset :: rest → ∃ t, step s = .next t ∧ t.flt = false) ∧
  (∀ (s t : State) (word : Cmd) (rest : List HostEvent), s.inp = .command word :: rest → s.flt = true →
    step s = .next t → t = { s with inp := rest, out := s.out ++ [⟨.faulted, 0, []⟩] })

/-! ### Reset, invariant, unobservable storage -/

/-- The reset input, taken between commands, gives the block's fields their reset values and no response; with no event
the block waits. That BUF is emptied, and that waiting is a step that changes nothing, are the model's choices
(logs 3 and 4). -/
def Obligations.ResetEventAndWaiting : Prop :=
  (∀ (s : State) (rest : List HostEvent), s.inp = .reset :: rest →
    step s = .next { bv := false, cap := 0, cur := 0, buf := [], flt := false, inp := rest, out := s.out }) ∧
  (∀ s : State, s.inp = [] → step s = .next s)

/-- The reset state has BV, FLT, CAP and CUR zero and meets the invariant. The empty buffer storage and host lists are
the model's choices (logs 1, 2 and 4). -/
def Obligations.ResetMeetsInvariant : Prop :=
  State.reset.bv = false ∧ State.reset.flt = false ∧ State.reset.cap = 0 ∧ State.reset.cur = 0 ∧ State.reset.Inv

/-- Every step keeps the invariant: canonical buffer storage, CUR within CAP, padding bits zero (10_state.md R18 items
1 and 2). -/
def Obligations.StepKeepsInvariant : Prop :=
  ∀ s t : State, s.Inv → step s = .next t → t.Inv

/-- A bit below the capacity that no command has written since CREATE made the buffer is 0, however many other commands
follow (10_state.md R18 item 3). Which positions a wide APPEND writes rests on this hardware's WIDE_SKIP, log 8. -/
def Obligations.UnwrittenBitsReadZero : Prop :=
  ∀ (capacity : Half) (s made t : State) (cmds : List Instr) (p : Nat),
    s.flt = false → exec (.create capacity) s = .next made → p < capacity.toNat →
    leavesPosition p cmds made → execAll cmds made = .next t → bitRead t.buf p = false

/-- What the spec calls unobservable cannot be observed: two states that meet the invariant and differ only in CAP, CUR
and BUF while no buffer exists, or in bytes from NB on, give the same responses and stay such (10_state.md R19, R22,
R23). In particular no response depends on what an unlisted byte reads as (log 4). -/
def Obligations.UnspecifiedStorageIsUnobservable : Prop :=
  ∀ s s' t t' : State, s.Inv → s'.Inv → s.Agree s' → step s = .next t → step s' = .next t' → t.Agree t'

/-- A command's effect and response do not depend on earlier responses or on later events (10_state.md R21, R22). -/
def Obligations.PortsAreNotState : Prop :=
  ∀ (i : Instr) (s t : State) (r : Response) (events : List HostEvent) (past : List Response),
    exec i s = .next t → t.out = s.out ++ [r] →
    exec i { s with inp := events, out := past } = .next { t with inp := events, out := past ++ [r] }

/-! ### Builder commands -/

/-- CREATE makes a zero-filled buffer of the operand's capacity with the cursor at 0, whatever was there; storage from
NB on keeps its contents (40_bitstream_builder.md R60). -/
def Obligations.CreateMakesZeroedBuffer : Prop :=
  ∀ (capacity : Half) (s : State), s.flt = false →
    ∃ t, exec (.create capacity) s = .next t ∧
      t.bv = true ∧ t.cap = capacity ∧ t.cur = 0 ∧ t.flt = false ∧ t.inp = s.inp ∧
      t.out = s.out ++ [⟨.ok, 0, []⟩] ∧
      (∀ a, a < (capacity.toNat + 7) / 8 → t.buf.read a = 0) ∧
      (∀ a, (capacity.toNat + 7) / 8 ≤ a → t.buf.read a = s.buf.read a)

/-- The append law: for a width of at most 64 that fits, the cursor advances by the width, the new region is the low
`width` bits of the value most significant first, and every other bit stays (40_bitstream_builder.md R69, whose last
part the spec marks "[derived: from rule R61 and `20_memory.md` rule R32]"; width 0 included, R61 (a); it rests on this
hardware's APPEND_MODE, log 7). -/
def Obligations.AppendLaw : Prop :=
  ∀ (value : VWord) (width : Half) (s : State), s.flt = false → s.bv = true →
    width.toNat ≤ 64 → s.cur.toNat + width.toNat ≤ s.cap.toNat →
    ∃ t, exec (.append value width) s = .next t ∧
      t.cur.toNat = s.cur.toNat + width.toNat ∧
      (∀ k, k < width.toNat → bitRead t.buf (s.cur.toNat + k) = value.getLsbD (width.toNat - 1 - k)) ∧
      (∀ p, p < s.cur.toNat ∨ s.cur.toNat + width.toNat ≤ p → bitRead t.buf p = bitRead s.buf p) ∧
      t.bv = true ∧ t.cap = s.cap ∧ t.flt = false ∧ t.inp = s.inp ∧ t.out = s.out ++ [⟨.ok, 0, []⟩]

/-- An append wider than 64 bits that fits passes over the first `width − 64` positions, which keep what they hold,
writes all 64 bits of the value after them and moves the cursor by the whole width (40_bitstream_builder.md R62, with
this hardware's WIDE_SKIP, log 8, and, over bits patched to 1, its APPEND_MODE, log 7). -/
def Obligations.WideAppendSkipsLeading : Prop :=
  ∀ (value : VWord) (width : Half) (s : State), s.flt = false → s.bv = true →
    64 < width.toNat → s.cur.toNat + width.toNat ≤ s.cap.toNat →
    ∃ t, exec (.append value width) s = .next t ∧
      t.cur.toNat = s.cur.toNat + width.toNat ∧
      (∀ k, k < 64 → bitRead t.buf (s.cur.toNat + (width.toNat - 64) + k) = value.getLsbD (63 - k)) ∧
      (∀ p, p < s.cur.toNat + (width.toNat - 64) ∨ s.cur.toNat + width.toNat ≤ p →
        bitRead t.buf p = bitRead s.buf p) ∧
      t.bv = true ∧ t.cap = s.cap ∧ t.flt = false ∧ t.inp = s.inp ∧ t.out = s.out ++ [⟨.ok, 0, []⟩]

/-- SETBITS that fits overwrites its run, zeros and ones, and neither reads nor moves the cursor; wider than 64 it is an
illegal command that changes nothing (40_bitstream_builder.md R63; 30_encoding.md R52). -/
def Obligations.SetbitsOverwritesRun : Prop :=
  (∀ (value : VWord) (startBit width : Half) (s : State), s.flt = false → s.bv = true →
    width.toNat ≤ 64 → startBit.toNat + width.toNat ≤ s.cap.toNat →
    ∃ t, exec (.setbits value startBit width) s = .next t ∧
      (∀ k, k < width.toNat → bitRead t.buf (startBit.toNat + k) = value.getLsbD (width.toNat - 1 - k)) ∧
      (∀ p, p < startBit.toNat ∨ startBit.toNat + width.toNat ≤ p → bitRead t.buf p = bitRead s.buf p) ∧
      t.bv = true ∧ t.cap = s.cap ∧ t.cur = s.cur ∧ t.flt = false ∧ t.inp = s.inp ∧
      t.out = s.out ++ [⟨.ok, 0, []⟩]) ∧
  (∀ (value : VWord) (startBit width : Half) (s : State), s.flt = false → 64 < width.toNat →
    exec (.setbits value startBit width) s = .next { s with out := s.out ++ [⟨.illegalCommand, 0, []⟩] })

/-- SETBIT below the capacity overwrites that one bit and leaves every other, and the cursor, alone
(40_bitstream_builder.md R64). -/
def Obligations.SetbitWritesOneBit : Prop :=
  ∀ (index : Half) (bit : Bool) (s : State), s.flt = false → s.bv = true → index.toNat < s.cap.toNat →
    ∃ t, exec (.setbit index bit) s = .next t ∧
      bitRead t.buf index.toNat = bit ∧
      (∀ p, p ≠ index.toNat → bitRead t.buf p = bitRead s.buf p) ∧
      t.bv = true ∧ t.cap = s.cap ∧ t.cur = s.cur ∧ t.flt = false ∧ t.inp = s.inp ∧
      t.out = s.out ++ [⟨.ok, 0, []⟩]

/-- SETBIT equals SETBITS of width 1 in every state (40_bitstream_builder.md R64 corner case (a)). -/
def Obligations.SetbitIsSetbitsOfWidthOne : Prop :=
  ∀ (index : Half) (bit : Bool) (s : State),
    exec (.setbit index bit) s = exec (.setbits ((BitVec.ofBool bit).setWidth 64) index 1) s

/-- RAWBYTES answers the `NB` bytes of the buffer, by the capacity and not the cursor, and changes nothing; when the
invariant holds the padding bits of the last byte are zero (40_bitstream_builder.md R65). -/
def Obligations.RawbytesReturnsWholeBuffer : Prop :=
  ∀ s : State, s.flt = false → s.bv = true →
    ∃ data : List Byte, exec .rawbytes s =
        .next { s with out := s.out ++ [⟨.ok, BitVec.ofNat 16 ((s.cap.toNat + 7) / 8), data⟩] } ∧
      data.length = (s.cap.toNat + 7) / 8 ∧
      (∀ p, p < 8 * data.length → (data.getD (p / 8) 0).getLsbD (7 - p % 8) = bitRead s.buf p) ∧
      (s.Inv → ∀ p, s.cap.toNat ≤ p → p < 8 * data.length → (data.getD (p / 8) 0).getLsbD (7 - p % 8) = false)

/-- BITCOUNT answers the cursor, TOBITSTR the appended bits as characters 0x30 and 0x31, first position first; neither
changes anything (40_bitstream_builder.md R66, R67). -/
def Obligations.CursorReadOuts : Prop :=
  ∀ s : State, s.flt = false → s.bv = true →
    exec .bitcount s = .next { s with out := s.out ++ [⟨.ok, s.cur, []⟩] } ∧
    ∃ chars : List Byte, exec .tobitstr s = .next { s with out := s.out ++ [⟨.ok, s.cur, chars⟩] } ∧
      chars.length = s.cur.toNat ∧
      ∀ p, p < s.cur.toNat → chars.getD p 0 = if bitRead s.buf p then 0x31 else 0x30

/-- The three read commands change no state in any case and may be repeated with the same answer (20_memory.md
R36). -/
def Obligations.ReadsHaveNoSideEffect : Prop :=
  ∀ (i : Instr) (s t u : State) (r r' : Response),
    i.mnemonic ∈ ["RAWBYTES", "BITCOUNT", "TOBITSTR"] →
    exec i s = .next t → t.out = s.out ++ [r] → exec i t = .next u → u.out = t.out ++ [r'] →
    t = { s with out := s.out ++ [r] } ∧ r' = r

/-- SETBITS and SETBIT are idempotent: the same command twice leaves the same buffer, and the same block (20_memory.md
R36). -/
def Obligations.PatchesAreIdempotent : Prop :=
  ∀ (i : Instr) (s t u : State), i.mnemonic ∈ ["SETBITS", "SETBIT"] →
    exec i s = .next t → exec i t = .next u →
    (∀ p, bitRead u.buf p = bitRead t.buf p) ∧
    u.bv = t.bv ∧ u.cap = t.cap ∧ u.cur = t.cur ∧ u.flt = t.flt

/-- CAP changes only when CREATE or a successful ENCODE makes a new buffer, to the operand and to 113 (10_state.md R13;
40_bitstream_builder.md R70). -/
def Obligations.CapacityChangesOnlyWithNewBuffer : Prop :=
  ∀ (i : Instr) (s t : State), exec i s = .next t → t.cap ≠ s.cap →
    (t.bv = true ∧ t.cur.toNat ≤ t.cap.toNat) ∧
    ((i = .create t.cap) ∨ (t.cap = 113 ∧ ∃ number policy, i = .encode number policy))

/-- Within the life of one buffer the cursor never decreases, and only APPEND moves it, by its width (10_state.md
R14). -/
def Obligations.CursorMovesOnlyByAppend : Prop :=
  ∀ (i : Instr) (s t : State), replacesBuffer i = false → exec i s = .next t →
    s.cur.toNat ≤ t.cur.toNat ∧
    (t.cur ≠ s.cur → ∃ value width, i = .append value width ∧ t.cur.toNat = s.cur.toNat + width.toNat)

/-- What TOBITSTR shows after an APPEND that fits is what it showed before, followed by the field's bits
(40_bitstream_builder.md R61, R67; it rests on this hardware's APPEND_MODE, log 7). -/
def Obligations.AppendExtendsBitString : Prop :=
  ∀ (value : VWord) (width : Half) (s : State), s.flt = false → s.bv = true →
    width.toNat ≤ 64 → s.cur.toNat + width.toNat ≤ s.cap.toNat →
    ∃ t, exec (.append value width) s = .next t ∧
      bitString t.buf t.cur.toNat = bitString s.buf s.cur.toNat ++
        (List.range width.toNat).map (fun k => if value.getLsbD (width.toNat - 1 - k) then 0x31 else 0x30)

/-- APPEND_MODE matters only over bits patched to 1 ahead of the cursor: in each position written, the `or` mode leaves
a one where the overwrite mode does or where a one stood, and elsewhere the two leave the same bit; for either WIDE_SKIP
(70_reset_and_hazards.md R145; 20_memory.md R32). -/
def Obligations.AppendModesDifferOnlyOverOnes : Prop :=
  ∀ (skip : WideSkip) (value : VWord) (width : Half) (s : State) (p : Nat),
    let start := s.cur.toNat + (match skip with | .leading => width.toNat - 64 | .trailing => 0)
    let plain := bitRead (s.appendBits .overwrite skip value width).buf p
    let ored := bitRead (s.appendBits .orIn skip value width).buf p
    (start ≤ p ∧ p < start + min width.toNat 64 → ored = (plain || bitRead s.buf p)) ∧
    (¬ (start ≤ p ∧ p < start + min width.toNat 64) → ored = plain ∧ plain = bitRead s.buf p)

/-! ### The symbol encoder -/

/-- The digit sequence: thirteen digits, `d[i]` of weight `10^(12−i)`, and only the last thirteen decimal digits count
(41_symbol_encoder.md R81; the spec marks that last clause "[derived: from the loop of this rule R81]"). -/
def Obligations.DigitsAreTheDecimalDigits : Prop :=
  ∀ n : Nat, IsDigits (digits n) ∧
    (∀ i, i < 13 → digit (digits n) i = n / 10 ^ (12 - i) % 10) ∧
    digits n = digits (n % 10 ^ 13)

/-- The weighted sum is R82's, at most 225, and the checksum its last decimal digit. -/
def Obligations.ChecksumWeights : Prop :=
  ∀ d : Digits, IsDigits d →
    (∀ d0 d1 d2 d3 d4 d5 d6 d7 d8 d9 d10 d11 d12, d = [d0, d1, d2, d3, d4, d5, d6, d7, d8, d9, d10, d11, d12] →
      weightedSum d = d0 + 3 * d1 + d2 + 3 * d3 + d4 + 3 * d5 + d6 + 3 * d7 + d8 + 3 * d9 + d10 + 3 * d11 + d12) ∧
    weightedSum d ≤ 225 ∧ checksum d = weightedSum d % 10 ∧ checksum d ≤ 9

/-- The expected digit is `(10 − (chk − d[12])) mod 10`, whose dividend lies between 1 and 19; it is the one digit that
makes the checksum 0 in place of the check digit, is `d[12]` when the checksum is 0, and does not depend on `d[12]`
(41_symbol_encoder.md R84, which marks the uniqueness "[derived: ...]"). -/
def Obligations.ExpectedDigitIsTheUniqueRepair : Prop :=
  ∀ d : Digits, IsDigits d →
    1 ≤ 10 - ((checksum d : Int) - digit d 12) ∧ 10 - ((checksum d : Int) - digit d 12) ≤ 19 ∧
    (expected d : Int) = (10 - ((checksum d : Int) - digit d 12)) % 10 ∧ expected d ≤ 9 ∧
    (∀ x, x ≤ 9 → (checksum (withCheckDigit d x) = 0 ↔ x = expected d)) ∧
    (checksum d = 0 → expected d = digit d 12) ∧
    (∀ x, x ≤ 9 → expected (withCheckDigit d x) = expected d)

/-- The display digits: the leading digit, and only it, is left out, and only when it is 0 (41_symbol_encoder.md
R92). -/
def Obligations.DisplayDropsOneLeadingZero : Prop :=
  ∀ d : Digits, IsDigits d →
    (digit d 0 = 0 → d = 0 :: display d ∧ (display d).length = 12) ∧
    (digit d 0 ≠ 0 → display d = d ∧ (display d).length = 13)

/-- A successful ENCODE (Validate with checksum 0, or Ignore) leaves a full buffer of 113 bits and answers 113 and the
display digits, whatever was there before; storage from byte 15 on keeps its contents (41_symbol_encoder.md R80, R83,
R93, R95). -/
def Obligations.EncodeSucceeds : Prop :=
  ∀ (number : VWord) (policy : Policy) (s : State), s.flt = false →
    (policy = .ignore ∨ checksum (digits number.toNat) = 0) →
    ∃ t, exec (.encode number policy) s = .next t ∧
      t.bv = true ∧ t.cap = 113 ∧ t.cur = 113 ∧ t.flt = false ∧ t.inp = s.inp ∧
      t.out = s.out ++ [⟨.ok, 113, (display (digits number.toNat)).map (BitVec.ofNat 8)⟩] ∧
      (∀ a, 15 ≤ a → t.buf.read a = s.buf.read a)

/-- After a successful ENCODE bit `p` of the buffer is bit `p` of the pattern, the padding is zero, and the bytes 0, 1,
12, 13, 14 have the forms R91 names (41_symbol_encoder.md R91, which marks them "[derived: from rules R86 to R90]"; the
form of byte 1 rests on the presumed tables, log 9). -/
def Obligations.EncodeWritesPattern : Prop :=
  ∀ (number : VWord) (policy : Policy) (s t : State), s.flt = false →
    (policy = .ignore ∨ checksum (digits number.toNat) = 0) → exec (.encode number policy) s = .next t →
    (pattern tables (digits number.toNat)).length = 113 ∧
    (∀ p, p < 113 → bitRead t.buf p = (pattern tables (digits number.toNat)).getD p false) ∧
    (∀ p, 113 ≤ p → p < 120 → bitRead t.buf p = false) ∧
    (∀ i j, i < 15 → j < 8 → (t.buf.read i).getLsbD (7 - j) =
      (pattern tables (digits number.toNat) ++ List.replicate 7 false).getD (8 * i + j) false) ∧
    t.buf.read 0 = 0x00 ∧ (t.buf.read 1).extractLsb' 3 5 = 0b01010 ∧
    (t.buf.read 12).extractLsb' 0 3 = 0b101 ∧ t.buf.read 13 = 0x00 ∧ t.buf.read 14 = 0x00

/-- The layout of the pattern, for every table values: quiet zone, `101`, the six left digits by the parity matrix's
choice of table, `01010`, the six right digits, `101`, quiet zone, each field most significant bit first
(41_symbol_encoder.md R85, R88, R89). -/
def Obligations.PatternLayout : Prop :=
  ∀ (T : Tables) (d : Digits),
    (pattern T d).length = 113 ∧
    (∀ p, p ≤ 8 → (pattern T d).getD p false = false) ∧
    (pattern T d).getD 9 false = true ∧ (pattern T d).getD 10 false = false ∧ (pattern T d).getD 11 false = true ∧
    (∀ j k, 1 ≤ j → j ≤ 6 → k < 7 → (pattern T d).getD (12 + 7 * (j - 1) + k) false =
      (if parity T (digit d 0) (j - 1) then tableEntry T.gtab (digit d j)
        else tableEntry T.ltab (digit d j)).getLsbD (6 - k)) ∧
    (pattern T d).getD 54 false = false ∧ (pattern T d).getD 55 false = true ∧ (pattern T d).getD 56 false = false ∧
    (pattern T d).getD 57 false = true ∧ (pattern T d).getD 58 false = false ∧
    (∀ j k, 7 ≤ j → j ≤ 12 → k < 7 → (pattern T d).getD (59 + 7 * (j - 7) + k) false =
      (tableEntry T.rtab (digit d j)).getLsbD (6 - k)) ∧
    (pattern T d).getD 101 false = true ∧ (pattern T d).getD 102 false = false ∧
    (pattern T d).getD 103 false = true ∧
    (∀ p, 104 ≤ p → p ≤ 112 → (pattern T d).getD p false = false)

/-- ENCODE is CREATE 113 followed by the seventeen appends of R90: the same block field for field, each of the eighteen
commands answered OK (41_symbol_encoder.md R90). -/
def Obligations.EncodeIsCreateAndAppends : Prop :=
  ∀ (number : VWord) (policy : Policy) (s : State), s.flt = false →
    (policy = .ignore ∨ checksum (digits number.toNat) = 0) →
    let d := digits number.toNat
    let left := fun j => Instr.append ((leftPat tables d j).setWidth 64) 7
    let right := fun j => Instr.append ((tableEntry tables.rtab (digit d j)).setWidth 64) 7
    ∃ t u, exec (.encode number policy) s = .next t ∧
      execAll [.create 113, .append 0 9, .append 0b101 3, left 1, left 2, left 3, left 4, left 5, left 6,
        .append 0b01010 5, right 7, right 8, right 9, right 10, right 11, right 12, .append 0b101 3, .append 0 9] s
        = .next u ∧
      t.bv = u.bv ∧ t.cap = u.cap ∧ t.cur = u.cur ∧ t.buf = u.buf ∧ t.flt = u.flt ∧ t.inp = u.inp ∧
      u.out = s.out ++ List.replicate 18 ⟨.ok, 0, []⟩

/-- The buffer ENCODE leaves is the same under both settings of APPEND_MODE and of WIDE_SKIP, for every table values
(41_symbol_encoder.md R90). -/
def Obligations.EncodeIndependentOfOpenModes : Prop :=
  ∀ (T : Tables) (d : Digits) (mode : AppendMode) (skip : WideSkip) (s : State),
    (∀ p, bitRead (s.encodeBuffer mode skip T d).buf p = bitRead (s.encodeBuffer .overwrite .leading T d).buf p) ∧
    (s.encodeBuffer mode skip T d).cur = 113 ∧ (s.encodeBuffer mode skip T d).cap = 113

/-- The six laws of R96: checksum 0 never mismatches; a nonzero checksum mismatches with the repairing digit; ENCODE is
a function of its word; the pattern has 113 bits; Ignore always succeeds; with checksum 0 the policies agree. The spec
marks the last two "[derived: from rule R83]". -/
def Obligations.EncodeLaws : Prop :=
  (∀ (number : VWord) (s t : State) (r : Response), s.flt = false → checksum (digits number.toNat) = 0 →
    exec (.encode number .validate) s = .next t → t.out = s.out ++ [r] → r.st ≠ .checkDigitMismatch) ∧
  (∀ (number : VWord) (s : State), s.flt = false → checksum (digits number.toNat) ≠ 0 →
    ∃ t e, exec (.encode number .validate) s = .next t ∧
      t.out = s.out ++ [⟨.checkDigitMismatch, BitVec.ofNat 16 e, []⟩] ∧ e ≤ 9 ∧
      checksum (withCheckDigit (digits number.toNat) e) = 0) ∧
  (∀ (number : VWord) (policy : Policy) (s s' t t' : State), s.flt = false → s'.flt = false →
    exec (.encode number policy) s = .next t → exec (.encode number policy) s' = .next t' →
    (∃ r, t.out = s.out ++ [r] ∧ t'.out = s'.out ++ [r]) ∧ t.bv = t'.bv ∧ t.flt = t'.flt ∧
    (t.bv = true → t.cap = t'.cap ∧ t.cur = t'.cur ∧ ∀ a, a < t.nb → t.buf.read a = t'.buf.read a)) ∧
  (∀ (number : VWord) (policy : Policy) (s t : State) (r : Response), s.flt = false →
    exec (.encode number policy) s = .next t → t.out = s.out ++ [r] → r.st = .ok →
    r.val = 113 ∧ t.cur = 113 ∧ t.cap = 113 ∧ (pattern tables (digits number.toNat)).length = 113) ∧
  (∀ (number : VWord) (s : State), s.flt = false →
    ∃ t r, exec (.encode number .ignore) s = .next t ∧ t.out = s.out ++ [r] ∧ r.st = .ok) ∧
  (∀ (number : VWord) (s : State), checksum (digits number.toNat) = 0 →
    exec (.encode number .validate) s = exec (.encode number .ignore) s)

/-- A number's digits beyond the last thirteen make no difference to ENCODE, in any state (41_symbol_encoder.md R81,
R97; 70_reset_and_hazards.md R150). -/
def Obligations.LongNumbersAreCut : Prop :=
  ∀ (number : VWord) (policy : Policy) (s : State),
    exec (.encode number policy) s = exec (.encode (number % 10000000000000) policy) s

/-- ENCODE takes the buffer: after any of the three ENCODE commands either no buffer exists and a buffer command is
answered NO_BUFFER, or the buffer is full and an APPEND of one bit or more latches the fault
(70_reset_and_hazards.md R148; 41_symbol_encoder.md R95). -/
def Obligations.EncodeTakesTheBuffer : Prop :=
  ∀ (i : Instr) (s t : State), i.mnemonic ∈ ["ENCODE", "ENCODE.U1", "ENCODE.U2"] → s.flt = false →
    exec i s = .next t →
    (t.bv = false ∧ exec .rawbytes t = .next { t with out := t.out ++ [⟨.noBuffer, 0, []⟩] }) ∨
    (t.bv = true ∧ t.cur = t.cap ∧
      ∀ (value : VWord) (width : Half), 1 ≤ width.toNat →
        exec (.append value width) t = .next { t with flt := true, out := t.out ++ [⟨.boundsFault, 0, []⟩] })

/-! ### Outcomes by kind, bits that stay, the tables' values -/

/-- The kind of a command's outcome fixes its state change: after OK the block is not faulted; a reported outcome clears
BV and does nothing else; a refusal changes nothing; BOUNDS_FAULT sets FLT and does nothing else (60_exceptions.md R120,
R129: so a command that does not end in OK has performed none of its data writes). -/
def Obligations.OutcomeKindsFixTheChange : Prop :=
  ∀ (s t : State) (word : Cmd) (rest : List HostEvent) (r : Response),
    s.inp = .command word :: rest → step s = .next t → t.out = s.out ++ [r] →
    (r.st = .ok → s.flt = false ∧ t.flt = false) ∧
    (r.st = .checkDigitMismatch ∨ r.st = .unsupportedSymbology →
      s.flt = false ∧ t = { s with bv := false, inp := rest, out := s.out ++ [r] }) ∧
    (r.st = .illegalCommand ∨ r.st = .noBuffer ∨ r.st = .faulted →
      t = { s with inp := rest, out := s.out ++ [r] }) ∧
    (r.st = .boundsFault →
      s.flt = false ∧ s.bv = true ∧ t = { s with flt := true, inp := rest, out := s.out ++ [r] })

/-- Every step but reset keeps every bit that its command, if it has one, neither writes nor gives up with the buffer: in
particular a bit that is 0 because nothing has written it stays 0 (10_state.md R18 item 3, as one step). Which positions
a wide APPEND writes rests on this hardware's WIDE_SKIP, log 8. -/
def Obligations.StepKeepsUnwrittenBits : Prop :=
  ∀ (s t : State) (p : Nat),
    (∀ rest, s.inp ≠ .reset :: rest) →
    (∀ word rest i, s.inp = .command word :: rest → decode word = .ok i →
      replacesBuffer i = false ∧ ¬ writesPosition i s p) →
    step s = .next t → bitRead t.buf p = bitRead s.buf p

/-- The tables' values, each entry as printed; R is the complement of L, G is R in reverse bit order, L and G begin with
0 and end with 1; the parity rows. The spec supplies these values from general knowledge (41_symbol_encoder.md R86, R87),
presumed, log 9. -/
def Obligations.TablesHoldThePrintedValues : Prop :=
  (List.range 10).map (tableEntry tables.ltab) = [0x0D, 0x19, 0x13, 0x3D, 0x23, 0x31, 0x2F, 0x3B, 0x37, 0x0B] ∧
  (List.range 10).map (tableEntry tables.gtab) = [0x27, 0x33, 0x1B, 0x21, 0x1D, 0x39, 0x05, 0x11, 0x09, 0x17] ∧
  (List.range 10).map (tableEntry tables.rtab) = [0x72, 0x66, 0x6C, 0x42, 0x5C, 0x4E, 0x50, 0x44, 0x48, 0x74] ∧
  (∀ x, x < 10 → tableEntry tables.rtab x = 0x7F ^^^ tableEntry tables.ltab x ∧
    (∀ k, k < 7 → (tableEntry tables.gtab x).getLsbD k = (tableEntry tables.rtab x).getLsbD (6 - k)) ∧
    (tableEntry tables.ltab x).getLsbD 6 = false ∧ (tableEntry tables.ltab x).getLsbD 0 = true ∧
    (tableEntry tables.gtab x).getLsbD 6 = false ∧ (tableEntry tables.gtab x).getLsbD 0 = true) ∧
  (List.range 10).map (fun f => (List.range 6).filter (parity tables f)) =
    [[], [2, 4, 5], [2, 3, 5], [2, 3, 4], [1, 4, 5], [1, 2, 5], [1, 2, 3], [1, 3, 5], [1, 3, 4], [1, 2, 4]]

/-- Two vectors of 95_test_vectors.md 2.2, E1 and E5: the fifteen bytes a successful ENCODE leaves, whatever was there
before. They rest on the presumed tables, log 9. -/
def Obligations.EncodeVectorBytes : Prop :=
  ∀ s : State, s.flt = false →
    (∃ t, exec (.encode 4006381333931 .validate) s = .next t ∧ t.buf.readBytes 15 =
      [0x00, 0x51, 0xA9, 0xD7, 0xBD, 0x12, 0xCD, 0x50, 0xA1, 0x42, 0xE9, 0x0B, 0x35, 0x00, 0x00]) ∧
    (∃ t, exec (.encode 1234567890128 .validate) s = .next t ∧ t.buf.readBytes 15 =
      [0x00, 0x52, 0x6F, 0x4E, 0xB1, 0x0A, 0x45, 0x52, 0x3A, 0x72, 0xCD, 0xB2, 0x45, 0x00, 0x00])

/-- The pattern determines all thirteen digits, the leading one, which only the parity carries, included
(41_symbol_encoder.md R87: the ten rows are pairwise different, "which is what lets a reader recover `d[0]`"). It rests on
the presumed tables, log 9. -/
def Obligations.PatternDeterminesDigits : Prop :=
  ∀ d d' : Digits, IsDigits d → IsDigits d' → pattern tables d = pattern tables d' → d = d'
end

