-- ==== Sys2Proof/Laws/State.lean ====
section
/-! SUPPORT. One lemma per field and per state update, true by definition, so that no proof unfolds a record
update. Each proof is written (rfl), in parentheses, so that simp applies the lemma as an equation: as a
definitional step it makes the kernel compare whole states, ENCODE's buffer among them. -/

namespace Sys2Proof.Machine

variable (s : State)

@[simp] theorem State.answer_bv (r : Response) : (s.answer r).bv = s.bv := (rfl)
@[simp] theorem State.answer_cap (r : Response) : (s.answer r).cap = s.cap := (rfl)
@[simp] theorem State.answer_cur (r : Response) : (s.answer r).cur = s.cur := (rfl)
@[simp] theorem State.answer_buf (r : Response) : (s.answer r).buf = s.buf := (rfl)
@[simp] theorem State.answer_flt (r : Response) : (s.answer r).flt = s.flt := (rfl)
@[simp] theorem State.answer_inp (r : Response) : (s.answer r).inp = s.inp := (rfl)
@[simp] theorem State.answer_out (r : Response) : (s.answer r).out = s.out ++ [r] := (rfl)

@[simp] theorem State.latchFault_bv : s.latchFault.bv = s.bv := (rfl)
@[simp] theorem State.latchFault_cap : s.latchFault.cap = s.cap := (rfl)
@[simp] theorem State.latchFault_cur : s.latchFault.cur = s.cur := (rfl)
@[simp] theorem State.latchFault_buf : s.latchFault.buf = s.buf := (rfl)
@[simp] theorem State.latchFault_flt : s.latchFault.flt = true := (rfl)
@[simp] theorem State.latchFault_inp : s.latchFault.inp = s.inp := (rfl)
@[simp] theorem State.latchFault_out : s.latchFault.out = s.out := (rfl)

@[simp] theorem State.dropBuffer_bv : s.dropBuffer.bv = false := (rfl)
@[simp] theorem State.dropBuffer_cap : s.dropBuffer.cap = s.cap := (rfl)
@[simp] theorem State.dropBuffer_cur : s.dropBuffer.cur = s.cur := (rfl)
@[simp] theorem State.dropBuffer_buf : s.dropBuffer.buf = s.buf := (rfl)
@[simp] theorem State.dropBuffer_flt : s.dropBuffer.flt = s.flt := (rfl)
@[simp] theorem State.dropBuffer_inp : s.dropBuffer.inp = s.inp := (rfl)
@[simp] theorem State.dropBuffer_out : s.dropBuffer.out = s.out := (rfl)

@[simp] theorem State.withBuf_bv (m : Memory) : (s.withBuf m).bv = s.bv := (rfl)
@[simp] theorem State.withBuf_cap (m : Memory) : (s.withBuf m).cap = s.cap := (rfl)
@[simp] theorem State.withBuf_cur (m : Memory) : (s.withBuf m).cur = s.cur := (rfl)
@[simp] theorem State.withBuf_buf (m : Memory) : (s.withBuf m).buf = m := (rfl)
@[simp] theorem State.withBuf_flt (m : Memory) : (s.withBuf m).flt = s.flt := (rfl)
@[simp] theorem State.withBuf_inp (m : Memory) : (s.withBuf m).inp = s.inp := (rfl)
@[simp] theorem State.withBuf_out (m : Memory) : (s.withBuf m).out = s.out := (rfl)

@[simp] theorem State.withCur_bv (c : Half) : (s.withCur c).bv = s.bv := (rfl)
@[simp] theorem State.withCur_cap (c : Half) : (s.withCur c).cap = s.cap := (rfl)
@[simp] theorem State.withCur_cur (c : Half) : (s.withCur c).cur = c := (rfl)
@[simp] theorem State.withCur_buf (c : Half) : (s.withCur c).buf = s.buf := (rfl)
@[simp] theorem State.withCur_flt (c : Half) : (s.withCur c).flt = s.flt := (rfl)
@[simp] theorem State.withCur_inp (c : Half) : (s.withCur c).inp = s.inp := (rfl)
@[simp] theorem State.withCur_out (c : Half) : (s.withCur c).out = s.out := (rfl)

@[simp] theorem State.newBuffer_bv (c : Half) : (s.newBuffer c).bv = true := (rfl)
@[simp] theorem State.newBuffer_cap (c : Half) : (s.newBuffer c).cap = c := (rfl)
@[simp] theorem State.newBuffer_cur (c : Half) : (s.newBuffer c).cur = 0 := (rfl)
@[simp] theorem State.newBuffer_buf (c : Half) : (s.newBuffer c).buf = s.buf.zeroFill (nbOf c) := (rfl)
@[simp] theorem State.newBuffer_flt (c : Half) : (s.newBuffer c).flt = s.flt := (rfl)
@[simp] theorem State.newBuffer_inp (c : Half) : (s.newBuffer c).inp = s.inp := (rfl)
@[simp] theorem State.newBuffer_out (c : Half) : (s.newBuffer c).out = s.out := (rfl)

@[simp] theorem State.takeEvent_bv (rest : List HostEvent) : (s.takeEvent rest).bv = s.bv := (rfl)
@[simp] theorem State.takeEvent_cap (rest : List HostEvent) : (s.takeEvent rest).cap = s.cap := (rfl)
@[simp] theorem State.takeEvent_cur (rest : List HostEvent) : (s.takeEvent rest).cur = s.cur := (rfl)
@[simp] theorem State.takeEvent_buf (rest : List HostEvent) : (s.takeEvent rest).buf = s.buf := (rfl)
@[simp] theorem State.takeEvent_flt (rest : List HostEvent) : (s.takeEvent rest).flt = s.flt := (rfl)
@[simp] theorem State.takeEvent_inp (rest : List HostEvent) : (s.takeEvent rest).inp = rest := (rfl)
@[simp] theorem State.takeEvent_out (rest : List HostEvent) : (s.takeEvent rest).out = s.out := (rfl)

@[simp] theorem State.offerWord_bv (w : Cmd) : (s.offerWord w).bv = s.bv := (rfl)
@[simp] theorem State.offerWord_cap (w : Cmd) : (s.offerWord w).cap = s.cap := (rfl)
@[simp] theorem State.offerWord_cur (w : Cmd) : (s.offerWord w).cur = s.cur := (rfl)
@[simp] theorem State.offerWord_buf (w : Cmd) : (s.offerWord w).buf = s.buf := (rfl)
@[simp] theorem State.offerWord_flt (w : Cmd) : (s.offerWord w).flt = s.flt := (rfl)
@[simp] theorem State.offerWord_inp (w : Cmd) : (s.offerWord w).inp = .command w :: s.inp := (rfl)
@[simp] theorem State.offerWord_out (w : Cmd) : (s.offerWord w).out = s.out := (rfl)

@[simp] theorem State.resetBlock_bv : s.resetBlock.bv = false := (rfl)
@[simp] theorem State.resetBlock_cap : s.resetBlock.cap = 0 := (rfl)
@[simp] theorem State.resetBlock_cur : s.resetBlock.cur = 0 := (rfl)
@[simp] theorem State.resetBlock_buf : s.resetBlock.buf = [] := (rfl)
@[simp] theorem State.resetBlock_flt : s.resetBlock.flt = false := (rfl)
@[simp] theorem State.resetBlock_inp : s.resetBlock.inp = s.inp := (rfl)
@[simp] theorem State.resetBlock_out : s.resetBlock.out = s.out := (rfl)

@[simp] theorem State.reset_bv : State.reset.bv = false := (rfl)
@[simp] theorem State.reset_cap : State.reset.cap = 0 := (rfl)
@[simp] theorem State.reset_cur : State.reset.cur = 0 := (rfl)
@[simp] theorem State.reset_buf : State.reset.buf = [] := (rfl)
@[simp] theorem State.reset_flt : State.reset.flt = false := (rfl)
@[simp] theorem State.reset_inp : State.reset.inp = [] := (rfl)
@[simp] theorem State.reset_out : State.reset.out = [] := (rfl)

end Sys2Proof.Machine
end

