-- ==== Sys2Proof/Laws/Memory.lean ====
section
/-! SUPPORT. Buffer storage: what each operation makes a byte read as, and that each keeps the canonical form. -/

namespace Sys2Proof.Machine

open Sys2Proof.Config

@[simp] theorem unwritten_eq (a : Nat) : unwritten a = 0 := rfl

@[simp] theorem Memory.read_nil (a : Nat) : Memory.read [] a = 0 := rfl

theorem Memory.read_cons (c : Host.Cell) (m : Memory) (a : Nat) :
    Memory.read (c :: m) a = if c.1 = a then c.2 else Memory.read m a := rfl

/-- A filter on addresses keeps the bytes it lets through and makes the others unlisted. -/
theorem Memory.read_filter (m : Memory) (f : Nat → Bool) (a : Nat) :
    Memory.read (m.filter (fun c => f c.1)) a = if f a then Memory.read m a else 0 := by
  induction m with
  | nil => simp
  | cons c rest ih =>
    by_cases hf : f c.1 = true
    · rw [List.filter_cons_of_pos (by simpa using hf), Memory.read_cons, Memory.read_cons, ih]
      by_cases h : c.1 = a
      · subst h; simp [hf]
      · simp [h]
    · rw [List.filter_cons_of_neg (by simpa using hf), Memory.read_cons, ih]
      by_cases h : c.1 = a
      · subst h; simp [hf]
      · simp [h]

/-- A byte entered where none was listed is the one read there. -/
theorem Memory.read_insert (m : Memory) (a : Nat) (x : Byte) (b : Nat) (h : ∀ c ∈ m, c.1 ≠ a) :
    Memory.read (Memory.insert m a x) b = if b = a then x else Memory.read m b := by
  induction m with
  | nil => simp [Memory.insert, Memory.read_cons, eq_comm]
  | cons c rest ih =>
    have hc : c.1 ≠ a := h c (by simp)
    have hrest := ih (fun d hd => h d (by simp [hd]))
    unfold Memory.insert
    split
    · simp [Memory.read_cons, eq_comm]
    · rw [Memory.read_cons, hrest, Memory.read_cons]
      by_cases hb : b = a
      · subst hb; simp [hc]
      · simp [hb]

/-- A read after a write: the byte written at its place, every other byte as before. -/
theorem Memory.read_write (m : Memory) (a : Nat) (x : Byte) (b : Nat) :
    Memory.read (m.write a x) b = if b = a then x else Memory.read m b := by
  have hf := Memory.read_filter m (fun c => decide (c ≠ a)) b
  unfold Memory.write
  by_cases hx : x = unwritten a
  · simp only [hx, if_true]
    refine hf.trans ?_
    by_cases hb : b = a <;> simp [hb]
  · simp only [hx, if_false]
    rw [Memory.read_insert _ _ _ _ (by simp)]
    by_cases hb : b = a
    · simp [hb]
    · simp only [hb, if_false]
      exact hf.trans (by simp [hb])

@[simp] theorem Memory.read_write_same (m : Memory) (a : Nat) (x : Byte) : Memory.read (m.write a x) a = x := by
  simp [Memory.read_write]

theorem Memory.read_write_other (m : Memory) {a b : Nat} (x : Byte) (h : b ≠ a) :
    Memory.read (m.write a x) b = Memory.read m b := by
  simp [Memory.read_write, h]

/-- Zero-filling: the first `n` bytes are zero, the others as before. -/
theorem Memory.read_zeroFill (m : Memory) (n a : Nat) :
    Memory.read (m.zeroFill n) a = if a < n then 0 else Memory.read m a := by
  have hf := Memory.read_filter m (fun c => decide (n ≤ c)) a
  unfold Memory.zeroFill
  refine hf.trans ?_
  by_cases h : a < n
  · simp [h]
  · simp [h, Nat.not_lt.mp h]

@[simp] theorem Memory.length_readBytes (m : Memory) (n : Nat) : (m.readBytes n).length = n := by
  simp [Memory.readBytes]

theorem Memory.getElem_readBytes (m : Memory) (n i : Nat) (h : i < (m.readBytes n).length) :
    (m.readBytes n)[i] = m.read i := by
  simp [Memory.readBytes]

theorem Memory.readBytes_congr {m m' : Memory} {n : Nat} (h : ∀ a, a < n → m.read a = m'.read a) :
    m.readBytes n = m'.readBytes n := by
  unfold Memory.readBytes
  exact List.map_congr_left (fun a ha => h a (List.mem_range.mp ha))

/-! ### The canonical form -/

theorem Memory.rising_iff (m : Memory) : m.rising = true ↔ m.Pairwise (fun c d => c.1 < d.1) := by
  induction m with
  | nil => simp [Memory.rising]
  | cons c rest ih =>
    cases rest with
    | nil => simp [Memory.rising]
    | cons d rest =>
      simp only [Memory.rising, Bool.and_eq_true, decide_eq_true_eq, ih, List.pairwise_cons]
      constructor
      · rintro ⟨hcd, hd, hrest⟩
        refine ⟨?_, hd, hrest⟩
        intro e he
        rcases List.mem_cons.mp he with rfl | he
        · exact hcd
        · exact hcd.trans (hd e he)
      · rintro ⟨hc, hd, hrest⟩
        exact ⟨hc d (by simp), hd, hrest⟩

/-- The canonical form in words: addresses rise strictly, lie in the storage, and no listed byte is zero. -/
theorem Memory.wf_iff (m : Memory) :
    m.wf = true ↔ m.Pairwise (fun c d => c.1 < d.1) ∧ ∀ c ∈ m, c.1 < bufBytes ∧ c.2 ≠ 0 := by
  unfold Memory.wf
  simp only [Bool.and_eq_true, List.all_eq_true, Memory.rising_iff, decide_eq_true_eq]
  exact Iff.rfl

theorem Memory.wf_filter (m : Memory) (f : Host.Cell → Bool) (h : m.wf = true) :
    Memory.wf (m.filter f) = true := by
  rw [Memory.wf_iff] at *
  exact ⟨h.1.filter _, fun c hc => h.2 c (List.mem_of_mem_filter hc)⟩

theorem Memory.mem_insert (m : Memory) (a : Nat) (x : Byte) (c : Host.Cell) :
    c ∈ Memory.insert m a x ↔ c = (a, x) ∨ c ∈ m := by
  induction m with
  | nil => simp [Memory.insert]
  | cons d rest ih =>
    unfold Memory.insert
    split
    · simp
    · simp only [List.mem_cons, ih]; tauto

theorem Memory.wf_insert (m : Memory) (a : Nat) (x : Byte) (h : m.wf = true) (ha : a < bufBytes) (hx : x ≠ 0)
    (hm : ∀ c ∈ m, c.1 ≠ a) : Memory.wf (Memory.insert m a x) = true := by
  rw [Memory.wf_iff] at h ⊢
  refine ⟨?_, ?_⟩
  · obtain ⟨hp, -⟩ := h
    induction m with
    | nil => simp [Memory.insert]
    | cons c rest ih =>
      have hrest := List.pairwise_cons.mp hp
      have hca : c.1 ≠ a := hm c (by simp)
      unfold Memory.insert
      split
      · rename_i hlt
        refine List.pairwise_cons.mpr ⟨?_, hp⟩
        intro d hd
        rcases List.mem_cons.mp hd with rfl | hd
        · exact hlt
        · exact Nat.lt_trans hlt (hrest.1 d hd)
      · rename_i hge
        refine List.pairwise_cons.mpr ⟨?_, ih (fun d hd => hm d (by simp [hd])) hrest.2⟩
        intro d hd
        rcases (Memory.mem_insert _ _ _ _).mp hd with rfl | hd
        · have := hca; simp only at *; omega
        · exact hrest.1 d hd
  · intro c hc
    rcases (Memory.mem_insert _ _ _ _).mp hc with rfl | hc
    · exact ⟨ha, hx⟩
    · exact h.2 c hc

/-- A write inside the storage keeps the canonical form. -/
theorem Memory.wf_write (m : Memory) (a : Nat) (x : Byte) (h : m.wf = true) (ha : a < bufBytes) :
    (m.write a x).wf = true := by
  have hrest := Memory.wf_filter m (fun c => decide (c.1 ≠ a)) h
  unfold Memory.write
  by_cases hx : x = unwritten a
  · simp only [hx, if_true]; exact hrest
  · simp only [hx, if_false]
    exact Memory.wf_insert _ a x hrest ha (by simpa using hx) (by simp)

theorem Memory.wf_zeroFill (m : Memory) (n : Nat) (h : m.wf = true) : (m.zeroFill n).wf = true :=
  Memory.wf_filter m _ h

theorem reset_buf_wf : State.reset.buf.wf = true := by decide

end Sys2Proof.Machine
end

