-- ==== Sys2Proof/Laws/Bits.lean ====
section
/-! SUPPORT. Bits and fields of the buffer: what BitWrite and a field write do to every bit (20_memory.md R31 to
R33), that bytes are determined by their bits, and the spec lemma of an append. -/

namespace Sys2Proof.Machine

open Sys2Proof.Config

/-- R32's formula bit by bit: the addressed bit gets the value, the others stay. -/
theorem getLsbD_bitInByte_overwrite (x : Byte) (p : Nat) (b : Bool) (i : Nat) (hi : i < 8) :
    (bitInByte .overwrite x p b).getLsbD i = if i = 7 - p % 8 then b else x.getLsbD i := by
  have hp : p % 8 < 8 := Nat.mod_lt _ (by omega)
  unfold bitInByte
  generalize p % 8 = k at *
  rcases b with _ | _ <;> interval_cases k <;> interval_cases i <;> simp

/-- The `or` variant of R32: the addressed bit keeps a one it holds. -/
theorem getLsbD_bitInByte_orIn (x : Byte) (p : Nat) (b : Bool) (i : Nat) (hi : i < 8) :
    (bitInByte .orIn x p b).getLsbD i = if i = 7 - p % 8 then (x.getLsbD i || b) else x.getLsbD i := by
  have hp : p % 8 < 8 := Nat.mod_lt _ (by omega)
  unfold bitInByte
  generalize p % 8 = k at *
  rcases b with _ | _ <;> interval_cases k <;> interval_cases i <;> simp

/-- The bit that a BitWrite leaves at its position: the written bit, or its `or` with what was there. -/
def writtenBit (mode : AppendMode) (old b : Bool) : Bool :=
  match mode with
  | .overwrite => b
  | .orIn      => old || b

@[simp] theorem writtenBit_overwrite (old b : Bool) : writtenBit .overwrite old b = b := (rfl)
@[simp] theorem writtenBit_orIn (old b : Bool) : writtenBit .orIn old b = (old || b) := (rfl)
@[simp] theorem writtenBit_false (mode : AppendMode) (b : Bool) : writtenBit mode false b = b := by
  cases mode <;> rfl

theorem getLsbD_bitInByte (mode : AppendMode) (x : Byte) (p : Nat) (b : Bool) (i : Nat) (hi : i < 8) :
    (bitInByte mode x p b).getLsbD i =
      if i = 7 - p % 8 then writtenBit mode (x.getLsbD i) b else x.getLsbD i := by
  cases mode
  · exact getLsbD_bitInByte_overwrite x p b i hi
  · exact getLsbD_bitInByte_orIn x p b i hi

/-- BitWrite changes its own position and no other. -/
theorem bitRead_bitWrite (mode : AppendMode) (m : Memory) (p : Nat) (b : Bool) (q : Nat) :
    bitRead (bitWrite mode m p b) q =
      if q = p then writtenBit mode (bitRead m p) b else bitRead m q := by
  unfold bitRead bitWrite
  rw [Memory.read_write]
  by_cases hb : q / 8 = p / 8
  · rw [if_pos hb, getLsbD_bitInByte _ _ _ _ _ (by omega)]
    by_cases hq : q = p
    · subst hq; simp
    · rw [if_neg hq, if_neg (by omega), hb]
  · rw [if_neg hb, if_neg (fun h => hb (by rw [h]))]

@[simp] theorem read_bitWrite_other (mode : AppendMode) (m : Memory) (p : Nat) (b : Bool) {a : Nat} (h : a ≠ p / 8) :
    (bitWrite mode m p b).read a = m.read a :=
  Memory.read_write_other m _ h

/-- A byte is determined by the eight bits read from it. -/
theorem read_eq_of_bitRead {m m' : Memory} {a : Nat}
    (h : ∀ p, p / 8 = a → bitRead m p = bitRead m' p) : m.read a = m'.read a := by
  refine BitVec.eq_of_getLsbD_eq (fun i hi => ?_)
  have h1 := h (8 * a + (7 - i)) (by omega)
  unfold bitRead at h1
  rw [show (8 * a + (7 - i)) / 8 = a by omega, show 7 - (8 * a + (7 - i)) % 8 = i by omega] at h1
  exact h1

theorem bitRead_congr {m m' : Memory} {p : Nat} (h : m.read (p / 8) = m'.read (p / 8)) : bitRead m p = bitRead m' p := by
  unfold bitRead; rw [h]

theorem bitRead_zeroFill (m : Memory) (n p : Nat) :
    bitRead (m.zeroFill n) p = if p < 8 * n then false else bitRead m p := by
  unfold bitRead
  rw [Memory.read_zeroFill]
  by_cases h : p / 8 < n
  · rw [if_pos h, if_pos (by omega)]; simp
  · rw [if_neg h, if_neg (by omega)]

/-- A field write: position `p + k` gets bit `n − 1 − k` of the value, every other position stays (R33). -/
theorem bitRead_writeField (mode : AppendMode) (v : VWord) (p n : Nat) (m : Memory) (q : Nat) :
    bitRead (writeField mode v p n m) q =
      if p ≤ q ∧ q < p + n then writtenBit mode (bitRead m q) (v.getLsbD (p + n - 1 - q)) else bitRead m q := by
  induction n generalizing p m with
  | zero => rw [if_neg (by omega)]; rfl
  | succ n ih =>
    rw [show writeField mode v p (n + 1) m = writeField mode v (p + 1) n (bitWrite mode m p (v.getLsbD n)) from rfl,
      ih, bitRead_bitWrite]
    by_cases hq : q = p
    · subst hq
      rw [if_neg (by omega), if_pos rfl, if_pos (by omega), show q + (n + 1) - 1 - q = n by omega]
    · rw [if_neg hq, show p + 1 + n - 1 - q = p + (n + 1) - 1 - q by omega]
      by_cases h : p ≤ q ∧ q < p + (n + 1)
      · rw [if_pos (by omega), if_pos h]
      · rw [if_neg (by omega), if_neg h]

theorem wf_bitWrite (mode : AppendMode) (m : Memory) (p : Nat) (b : Bool) (h : m.wf = true) (hp : p < 8 * bufBytes) :
    (bitWrite mode m p b).wf = true :=
  Memory.wf_write m _ _ h (by omega)

/-- A field write inside the storage keeps the canonical form. -/
theorem wf_writeField (mode : AppendMode) (v : VWord) (p n : Nat) (m : Memory) (h : m.wf = true)
    (hp : p + n ≤ 8 * bufBytes) : (writeField mode v p n m).wf = true := by
  induction n generalizing p m with
  | zero => exact h
  | succ n ih => exact ih (p + 1) _ (wf_bitWrite mode m p _ h (by omega)) (by omega)

/-- A field write leaves a byte alone when none of the byte's positions is in the field. -/
theorem read_writeField_other (mode : AppendMode) (v : VWord) (p n : Nat) (m : Memory) (a : Nat)
    (h : ∀ q, q / 8 = a → ¬ (p ≤ q ∧ q < p + n)) : (writeField mode v p n m).read a = m.read a :=
  read_eq_of_bitRead (fun q hq => by rw [bitRead_writeField, if_neg (h q hq)])

/-! ### The append -/

section append

variable (mode : AppendMode) (skip : WideSkip) (v : VWord) (w : Half) (s : State)

@[simp] theorem State.appendBits_bv : (s.appendBits mode skip v w).bv = s.bv := (rfl)
@[simp] theorem State.appendBits_cap : (s.appendBits mode skip v w).cap = s.cap := (rfl)
@[simp] theorem State.appendBits_cur : (s.appendBits mode skip v w).cur = s.cur + w := (rfl)
@[simp] theorem State.appendBits_flt : (s.appendBits mode skip v w).flt = s.flt := (rfl)
@[simp] theorem State.appendBits_inp : (s.appendBits mode skip v w).inp = s.inp := (rfl)
@[simp] theorem State.appendBits_out : (s.appendBits mode skip v w).out = s.out := (rfl)

/-- Every bit of the buffer after an append: the written positions start after those passed over and number at most
64 (R61, R62). -/
theorem bitRead_appendBits (q : Nat) :
    bitRead (s.appendBits mode skip v w).buf q =
      if s.cur.toNat + skipBefore skip w.toNat ≤ q ∧
          q < s.cur.toNat + skipBefore skip w.toNat + min w.toNat 64
      then writtenBit mode (bitRead s.buf q)
        (v.getLsbD (s.cur.toNat + skipBefore skip w.toNat + min w.toNat 64 - 1 - q))
      else bitRead s.buf q :=
  bitRead_writeField ..

end append

theorem skipBefore_add_min (skip : WideSkip) (w : Nat) : skipBefore skip w + min w 64 ≤ w := by
  cases skip <;> simp only [skipBefore] <;> omega

@[simp] theorem length_bitString (m : Memory) (n : Nat) : (bitString m n).length = n := by
  simp [bitString]

theorem bitString_congr {m m' : Memory} {n : Nat} (h : ∀ p, p < n → bitRead m p = bitRead m' p) :
    bitString m n = bitString m' n := by
  unfold bitString
  exact List.map_congr_left (fun p hp => by rw [h p (List.mem_range.mp hp)])

/-- The bounds check in words (R38). -/
theorem rangeFits_iff (s : State) (start n : Nat) : rangeFits s start n = true ↔ start + n ≤ s.cap.toNat := by
  simp [rangeFits]

end Sys2Proof.Machine
end

