-- ==== Sys2Proof/Laws/Encoder.lean ====
section
/-! SUPPORT. The buffer ENCODE makes: what a run of appends does to each field of the state and to the bits, and what
that gives for the seventeen fields of a pattern. -/

namespace Sys2Proof.Machine

open Sys2Proof.Config

/-- The appends of a list of fields. -/
def appendFields (mode : AppendMode) (skip : WideSkip) (fs : List PatternField) (s : State) : State :=
  fs.foldl (fun t f => t.appendBits mode skip f.value f.width) s

section fields

variable (mode : AppendMode) (skip : WideSkip) (fs : List PatternField) (s : State)

@[simp] theorem appendFields_bv : (appendFields mode skip fs s).bv = s.bv := by
  induction fs generalizing s with
  | nil => rfl
  | cons f fs ih => exact ih _

@[simp] theorem appendFields_cap : (appendFields mode skip fs s).cap = s.cap := by
  induction fs generalizing s with
  | nil => rfl
  | cons f fs ih => exact ih _

@[simp] theorem appendFields_flt : (appendFields mode skip fs s).flt = s.flt := by
  induction fs generalizing s with
  | nil => rfl
  | cons f fs ih => exact ih _

@[simp] theorem appendFields_inp : (appendFields mode skip fs s).inp = s.inp := by
  induction fs generalizing s with
  | nil => rfl
  | cons f fs ih => exact ih _

@[simp] theorem appendFields_out : (appendFields mode skip fs s).out = s.out := by
  induction fs generalizing s with
  | nil => rfl
  | cons f fs ih => exact ih _

/-- The widths of the fields, together. -/
def totalWidth (fs : List PatternField) : Nat := (fs.map (fun f => f.width.toNat)).sum

theorem appendFields_cur (h : s.cur.toNat + totalWidth fs < 65536) :
    (appendFields mode skip fs s).cur.toNat = s.cur.toNat + totalWidth fs := by
  induction fs generalizing s with
  | nil => simp [appendFields, totalWidth]
  | cons f fs ih =>
    have hw : totalWidth (f :: fs) = f.width.toNat + totalWidth fs := by simp [totalWidth]
    have hc : (s.appendBits mode skip f.value f.width).cur.toNat = s.cur.toNat + f.width.toNat := by
      rw [State.appendBits_cur, BitVec.toNat_add, Nat.mod_eq_of_lt (by omega)]
    have := ih (s.appendBits mode skip f.value f.width) (by omega)
    show (appendFields mode skip fs (s.appendBits mode skip f.value f.width)).cur.toNat = _
    omega

/-- Positions outside the appended region keep their bits. -/
theorem bitRead_appendFields_other (h : s.cur.toNat + totalWidth fs < 65536) (q : Nat)
    (hq : q < s.cur.toNat ∨ s.cur.toNat + totalWidth fs ≤ q) :
    bitRead (appendFields mode skip fs s).buf q = bitRead s.buf q := by
  induction fs generalizing s with
  | nil => rfl
  | cons f fs ih =>
    have hw : totalWidth (f :: fs) = f.width.toNat + totalWidth fs := by simp [totalWidth]
    have hc : (s.appendBits mode skip f.value f.width).cur.toNat = s.cur.toNat + f.width.toNat := by
      rw [State.appendBits_cur, BitVec.toNat_add, Nat.mod_eq_of_lt (by omega)]
    have hs := skipBefore_add_min skip f.width.toNat
    show bitRead (appendFields mode skip fs (s.appendBits mode skip f.value f.width)).buf q = _
    rw [ih _ (by omega) (by omega), bitRead_appendBits, if_neg (by omega)]

/-- In a region of zeros, fields of at most 64 bits leave their bits one after another, in either mode. -/
theorem bitRead_appendFields (hf : ∀ f ∈ fs, f.width.toNat ≤ 64) (h : s.cur.toNat + totalWidth fs < 65536)
    (hz : ∀ q, s.cur.toNat ≤ q → q < s.cur.toNat + totalWidth fs → bitRead s.buf q = false)
    (k : Nat) (hk : k < totalWidth fs) :
    bitRead (appendFields mode skip fs s).buf (s.cur.toNat + k) = (fs.flatMap fieldBits).getD k false := by
  induction fs generalizing s k with
  | nil => simp [totalWidth] at hk
  | cons f fs ih =>
    have hw : totalWidth (f :: fs) = f.width.toNat + totalWidth fs := by simp [totalWidth]
    have hc : (s.appendBits mode skip f.value f.width).cur.toNat = s.cur.toNat + f.width.toNat := by
      rw [State.appendBits_cur, BitVec.toNat_add, Nat.mod_eq_of_lt (by omega)]
    have h64 : f.width.toNat ≤ 64 := hf f (by simp)
    have hskip : skipBefore skip f.width.toNat = 0 := by cases skip <;> simp [skipBefore, h64]
    have hlen : (fieldBits f).length = f.width.toNat := by simp [fieldBits]
    show bitRead (appendFields mode skip fs (s.appendBits mode skip f.value f.width)).buf _ = _
    rw [List.flatMap_cons]
    by_cases hkf : k < f.width.toNat
    · rw [bitRead_appendFields_other _ _ _ _ (by omega) _ (by omega), bitRead_appendBits, hskip,
        if_pos (by omega), hz _ (by omega) (by omega), writtenBit_false,
        List.getD_append _ _ _ _ (by omega)]
      simp only [fieldBits, List.getD_eq_getElem?_getD, List.getElem?_map, List.getElem?_range hkf]
      simp only [Option.map_some, Option.getD_some]
      congr 1; omega
    · have := ih (s.appendBits mode skip f.value f.width) (fun g hg => hf g (by simp [hg])) (by omega)
        (fun q h1 h2 => by
          rw [bitRead_appendBits, if_neg (by omega)]; exact hz q (by omega) (by omega))
        (k - f.width.toNat) (by omega)
      rw [hc, show s.cur.toNat + f.width.toNat + (k - f.width.toNat) = s.cur.toNat + k by omega] at this
      rw [this, List.getD_append_right _ _ _ _ (by omega), hlen]

end fields

/-! ### The buffer of a pattern -/

section pattern

variable (mode : AppendMode) (skip : WideSkip) (T : Tables) (d : Digits) (s : State)

theorem encodeBuffer_eq : s.encodeBuffer mode skip T d =
    appendFields mode skip (patternFields T d) (s.newBuffer (BitVec.ofNat 16 patBits)) := rfl

theorem totalWidth_patternFields : totalWidth (patternFields T d) = 113 := by
  simp [totalWidth, patternFields, quietZone, guardBars, centerBars, digitBars]

theorem width_patternFields : ∀ f ∈ patternFields T d, f.width.toNat ≤ 64 := by
  simp [patternFields, quietZone, guardBars, centerBars, digitBars]

@[simp] theorem encodeBuffer_bv : (s.encodeBuffer mode skip T d).bv = true := by simp [encodeBuffer_eq]
@[simp] theorem encodeBuffer_cap : (s.encodeBuffer mode skip T d).cap = 113 := by simp [encodeBuffer_eq, patBits]
@[simp] theorem encodeBuffer_flt : (s.encodeBuffer mode skip T d).flt = s.flt := by simp [encodeBuffer_eq]
@[simp] theorem encodeBuffer_inp : (s.encodeBuffer mode skip T d).inp = s.inp := by simp [encodeBuffer_eq]
@[simp] theorem encodeBuffer_out : (s.encodeBuffer mode skip T d).out = s.out := by simp [encodeBuffer_eq]

@[simp] theorem encodeBuffer_cur : (s.encodeBuffer mode skip T d).cur = 113 := by
  apply BitVec.eq_of_toNat_eq
  rw [encodeBuffer_eq, appendFields_cur _ _ _ _ (by rw [totalWidth_patternFields]; simp)]
  rw [totalWidth_patternFields]; rfl

end pattern

end Sys2Proof.Machine
end

