-- ==== Sys2Proof/Laws/Outcome.lean ====
section
/-! SUPPORT. Responses, outcomes and the tests that begin every command: each shared operation's answer in one
lemma. -/

namespace Sys2Proof.Machine

variable {s t : State} {st : Status} {val : Half} {data : List Byte} {k : Result}

/-- A response is a next state with the response appended. -/
theorem respond_eq (st : Status) (val : Half) (data : List Byte) (s : State) :
    respond st val data s = .next (s.answer ⟨st, val, data⟩) := rfl

/-- An exceptional outcome is a next state: the outcome's effect, and a response with its code and no data. -/
theorem raise_eq (st : Status) (info : Half) (s : State) :
    raise st info s = .next ((outcomeEffect st s).answer ⟨st, info, []⟩) := rfl

@[simp] theorem outcomeEffect_ok : outcomeEffect .ok s = s := (rfl)
@[simp] theorem outcomeEffect_checkDigitMismatch : outcomeEffect .checkDigitMismatch s = s.dropBuffer := (rfl)
@[simp] theorem outcomeEffect_unsupportedSymbology : outcomeEffect .unsupportedSymbology s = s.dropBuffer := (rfl)
@[simp] theorem outcomeEffect_illegalCommand : outcomeEffect .illegalCommand s = s := (rfl)
@[simp] theorem outcomeEffect_noBuffer : outcomeEffect .noBuffer s = s := (rfl)
@[simp] theorem outcomeEffect_faulted : outcomeEffect .faulted s = s := (rfl)
@[simp] theorem outcomeEffect_boundsFault : outcomeEffect .boundsFault s = s.latchFault := (rfl)

theorem unlessFaulted_of_flt (h : s.flt = true) : unlessFaulted s k = raise .faulted 0 s := by
  simp [unlessFaulted, h]

theorem unlessFaulted_of_ok (h : s.flt = false) : unlessFaulted s k = k := by
  simp [unlessFaulted, h]

theorem withBuffer_of_bv (h : s.bv = true) : withBuffer s k = k := by
  simp [withBuffer, h]

theorem withBuffer_of_none (h : s.bv = false) : withBuffer s k = raise .noBuffer 0 s := by
  simp [withBuffer, h]

/-- What a command that starts with the test of FLT can answer. -/
theorem unlessFaulted_cases (s : State) (k : Result) :
    (s.flt = true ∧ unlessFaulted s k = raise .faulted 0 s) ∨ (s.flt = false ∧ unlessFaulted s k = k) := by
  cases h : s.flt
  · exact .inr ⟨rfl, unlessFaulted_of_ok h⟩
  · exact .inl ⟨rfl, unlessFaulted_of_flt h⟩

/-- What a buffer command can answer. -/
theorem withBuffer_cases (s : State) (k : Result) :
    (s.bv = false ∧ withBuffer s k = raise .noBuffer 0 s) ∨ (s.bv = true ∧ withBuffer s k = k) := by
  cases h : s.bv
  · exact .inl ⟨rfl, withBuffer_of_none h⟩
  · exact .inr ⟨rfl, withBuffer_of_bv h⟩

end Sys2Proof.Machine
end

