-- ==== Sys2Proof/Laws/Exec.lean ====
section
/-! SUPPORT. What each command can answer, once and for all: one lemma per meaning, its cases the outcomes of
60_exceptions.md R128 that the command has. Every case is a next state with one response. -/

namespace Sys2Proof.Machine

variable (s : State)

theorem execCreate_cases (c : Half) :
    (s.flt = true ∧ execCreate c s = .next (s.answer ⟨.faulted, 0, []⟩)) ∨
    (s.flt = false ∧ execCreate c s = .next ((s.newBuffer c).answer ⟨.ok, 0, []⟩)) :=
  unlessFaulted_cases s _

theorem execAppend_cases (v : VWord) (w : Half) :
    (s.flt = true ∧ execAppend v w s = .next (s.answer ⟨.faulted, 0, []⟩)) ∨
    (s.flt = false ∧ s.bv = false ∧ execAppend v w s = .next (s.answer ⟨.noBuffer, 0, []⟩)) ∨
    (s.flt = false ∧ s.bv = true ∧ s.cap.toNat < s.cur.toNat + w.toNat ∧
      execAppend v w s = .next (s.latchFault.answer ⟨.boundsFault, 0, []⟩)) ∨
    (s.flt = false ∧ s.bv = true ∧ s.cur.toNat + w.toNat ≤ s.cap.toNat ∧
      execAppend v w s = .next ((s.appendBits appendMode wideSkip v w).answer ⟨.ok, 0, []⟩)) := by
  cases hf : s.flt <;> cases hb : s.bv <;> by_cases hr : s.cur.toNat + w.toNat ≤ s.cap.toNat <;>
    simp [execAppend, unlessFaulted, withBuffer, rangeFits, hf, hb, hr, raise_eq, respond_eq]
  omega

theorem execSetbits_cases (v : VWord) (a w : Half) :
    (s.flt = true ∧ execSetbits v a w s = .next (s.answer ⟨.faulted, 0, []⟩)) ∨
    (s.flt = false ∧ 64 < w.toNat ∧ execSetbits v a w s = .next (s.answer ⟨.illegalCommand, 0, []⟩)) ∨
    (s.flt = false ∧ w.toNat ≤ 64 ∧ s.bv = false ∧
      execSetbits v a w s = .next (s.answer ⟨.noBuffer, 0, []⟩)) ∨
    (s.flt = false ∧ w.toNat ≤ 64 ∧ s.bv = true ∧ s.cap.toNat < a.toNat + w.toNat ∧
      execSetbits v a w s = .next (s.latchFault.answer ⟨.boundsFault, 0, []⟩)) ∨
    (s.flt = false ∧ w.toNat ≤ 64 ∧ s.bv = true ∧ a.toNat + w.toNat ≤ s.cap.toNat ∧
      execSetbits v a w s =
        .next ((s.withBuf (writeField .overwrite v a.toNat w.toNat s.buf)).answer ⟨.ok, 0, []⟩)) := by
  cases hf : s.flt <;> cases hb : s.bv <;> by_cases h64 : w.toNat ≤ 64 <;>
    by_cases hr : a.toNat + w.toNat ≤ s.cap.toNat <;>
    simp [execSetbits, unlessFaulted, withBuffer, rangeFits, hf, hb, h64, hr, raise_eq, respond_eq] <;> omega

theorem execSetbit_cases (a : Half) (b : Bool) :
    (s.flt = true ∧ execSetbit a b s = .next (s.answer ⟨.faulted, 0, []⟩)) ∨
    (s.flt = false ∧ s.bv = false ∧ execSetbit a b s = .next (s.answer ⟨.noBuffer, 0, []⟩)) ∨
    (s.flt = false ∧ s.bv = true ∧ s.cap.toNat ≤ a.toNat ∧
      execSetbit a b s = .next (s.latchFault.answer ⟨.boundsFault, 0, []⟩)) ∨
    (s.flt = false ∧ s.bv = true ∧ a.toNat < s.cap.toNat ∧
      execSetbit a b s = .next ((s.withBuf (bitWrite .overwrite s.buf a.toNat b)).answer ⟨.ok, 0, []⟩)) := by
  cases hf : s.flt <;> cases hb : s.bv <;> by_cases hr : a.toNat + 1 ≤ s.cap.toNat <;>
    simp [execSetbit, unlessFaulted, withBuffer, rangeFits, hf, hb, hr, raise_eq, respond_eq] <;> omega

theorem execRawbytes_cases :
    (s.flt = true ∧ execRawbytes s = .next (s.answer ⟨.faulted, 0, []⟩)) ∨
    (s.flt = false ∧ s.bv = false ∧ execRawbytes s = .next (s.answer ⟨.noBuffer, 0, []⟩)) ∨
    (s.flt = false ∧ s.bv = true ∧
      execRawbytes s = .next (s.answer ⟨.ok, BitVec.ofNat 16 s.nb, s.buf.readBytes s.nb⟩)) := by
  cases hf : s.flt <;> cases hb : s.bv <;>
    simp [execRawbytes, unlessFaulted, withBuffer, hf, hb, raise_eq, respond_eq]

theorem execBitcount_cases :
    (s.flt = true ∧ execBitcount s = .next (s.answer ⟨.faulted, 0, []⟩)) ∨
    (s.flt = false ∧ s.bv = false ∧ execBitcount s = .next (s.answer ⟨.noBuffer, 0, []⟩)) ∨
    (s.flt = false ∧ s.bv = true ∧ execBitcount s = .next (s.answer ⟨.ok, s.cur, []⟩)) := by
  cases hf : s.flt <;> cases hb : s.bv <;>
    simp [execBitcount, unlessFaulted, withBuffer, hf, hb, raise_eq, respond_eq]

theorem execTobitstr_cases :
    (s.flt = true ∧ execTobitstr s = .next (s.answer ⟨.faulted, 0, []⟩)) ∨
    (s.flt = false ∧ s.bv = false ∧ execTobitstr s = .next (s.answer ⟨.noBuffer, 0, []⟩)) ∨
    (s.flt = false ∧ s.bv = true ∧
      execTobitstr s = .next (s.answer ⟨.ok, s.cur, bitString s.buf s.cur.toNat⟩)) := by
  cases hf : s.flt <;> cases hb : s.bv <;>
    simp [execTobitstr, unlessFaulted, withBuffer, hf, hb, raise_eq, respond_eq]

theorem execEncode_cases (n : VWord) (p : Policy) :
    (s.flt = true ∧ execEncode n p s = .next (s.answer ⟨.faulted, 0, []⟩)) ∨
    (s.flt = false ∧ p = .validate ∧ checksum (digits n.toNat) ≠ 0 ∧
      execEncode n p s = .next
        (s.dropBuffer.answer ⟨.checkDigitMismatch, BitVec.ofNat 16 (expected (digits n.toNat)), []⟩)) ∨
    (s.flt = false ∧ (p = .ignore ∨ checksum (digits n.toNat) = 0) ∧
      execEncode n p s = .next ((s.encodeBuffer appendMode wideSkip tables (digits n.toNat)).answer
        ⟨.ok, BitVec.ofNat 16 Config.patBits, displayBytes (digits n.toNat)⟩)) := by
  cases hf : s.flt <;> cases p <;> by_cases hc : checksum (digits n.toNat) = 0 <;>
    simp [execEncode, unlessFaulted, hf, hc, raise_eq, respond_eq]

theorem execEncodeU1_cases (n : VWord) (p : Policy) :
    (s.flt = true ∧ execEncodeU1 n p s = .next (s.answer ⟨.faulted, 0, []⟩)) ∨
    (s.flt = false ∧ execEncodeU1 n p s = .next (s.dropBuffer.answer ⟨.unsupportedSymbology, 0, []⟩)) :=
  unlessFaulted_cases s _

theorem execEncodeU2_cases (n : VWord) (p : Policy) :
    (s.flt = true ∧ execEncodeU2 n p s = .next (s.answer ⟨.faulted, 0, []⟩)) ∨
    (s.flt = false ∧ execEncodeU2 n p s = .next (s.dropBuffer.answer ⟨.unsupportedSymbology, 0, []⟩)) :=
  unlessFaulted_cases s _

theorem refuseIllegal_cases :
    (s.flt = true ∧ refuseIllegal s = .next (s.answer ⟨.faulted, 0, []⟩)) ∨
    (s.flt = false ∧ refuseIllegal s = .next (s.answer ⟨.illegalCommand, 0, []⟩)) :=
  unlessFaulted_cases s _

/-- A command word on the port is carried out. -/
theorem runEvent_command (word : Cmd) : runEvent (.command word) s = runWord word s := rfl

/-- The reset input resets the block. -/
theorem runEvent_reset : runEvent .reset s = .next s.resetBlock := rfl

theorem runWord_ok {word : Cmd} {i : Instr} (h : decode word = .ok i) : runWord word s = exec i s := by
  simp [runWord, h]

theorem runWord_error {word : Cmd} {e : Illegal} (h : decode word = .error e) :
    runWord word s = refuseIllegal s := by
  simp [runWord, h]

end Sys2Proof.Machine
end

