-- ==== Sys2Proof/Laws/Fields.lean ====
section
/-! SUPPORT. A word and its fields determine each other (30_encoding.md R45). -/

namespace Sys2Proof

theorem fieldsOf_wordOf (f : Fields) : fieldsOf (wordOf f) = f := by
  obtain ⟨op, mod, rsv, a, w, v⟩ := f
  simp only [fieldsOf, wordOf, Fields.mk.injEq]
  refine ⟨?_, ?_, ?_, ?_, ?_, ?_⟩ <;> ext i hi
  all_goals
    simp only [BitVec.getElem_extractLsb', BitVec.getLsbD_append]
    repeat' split
    all_goals first
      | (exfalso; omega)
      | (rw [← BitVec.getLsbD_eq_getElem]; exact congrArg _ (by omega))

theorem wordOf_fieldsOf (c : Cmd) : wordOf (fieldsOf c) = c := by
  apply BitVec.eq_of_getLsbD_eq
  intro i hi
  simp only [fieldsOf, wordOf, BitVec.getLsbD_append, BitVec.getLsbD_extractLsb']
  repeat' split
  all_goals
    rw [decide_eq_true (by omega), Bool.true_and]
    exact congrArg _ (by omega)

end Sys2Proof
end

