-- ==== Sys2Proof/Laws/PerInstr.lean ====
section
/-! SUPPORT. Family F: the shape of every command's word, one lemma per constructor. The reserved field is zero, and a
field that the command's format marks "0" is zero (30_encoding.md R45, R47). -/

namespace Sys2Proof.Laws.F

/-- The word of `i` has its reserved field zero, an opcode from 1 to 8, and `A`, `W` and `V` zero where the format of
R47 says so. -/
def Statement (i : Instr) : Prop :=
  let f := fieldsOf (encode i)
  f.rsv = 0 ∧ 1 ≤ f.op.toNat ∧ f.op.toNat ≤ 8 ∧
  (i.mnemonic ∉ ["CREATE", "SETBITS", "SETBIT"] → f.a = 0) ∧
  (i.mnemonic ∉ ["APPEND", "SETBITS"] → f.w = 0) ∧
  (i.mnemonic ∉ ["APPEND", "SETBITS", "ENCODE", "ENCODE.U1", "ENCODE.U2"] → f.v = 0)

/-- The fields of a command's word are the command's fields. -/
theorem fieldsOf_encode (i : Instr) : fieldsOf (encode i) = instrFields i := fieldsOf_wordOf _

theorem create (capacityBits : Half) : Statement (.create capacityBits) := by
  simp [Statement, fieldsOf_encode, instrFields, Instr.mnemonic]

theorem append (value : VWord) (width : Half) : Statement (.append value width) := by
  simp [Statement, fieldsOf_encode, instrFields, Instr.mnemonic]

theorem setbits (value : VWord) (startBit width : Half) : Statement (.setbits value startBit width) := by
  simp [Statement, fieldsOf_encode, instrFields, Instr.mnemonic]

theorem setbit (index : Half) (bit : Bool) : Statement (.setbit index bit) := by
  simp [Statement, fieldsOf_encode, instrFields, Instr.mnemonic]

theorem rawbytes : Statement .rawbytes := by
  simp [Statement, fieldsOf_encode, instrFields, Instr.mnemonic]

theorem bitcount : Statement .bitcount := by
  simp [Statement, fieldsOf_encode, instrFields, Instr.mnemonic]

theorem tobitstr : Statement .tobitstr := by
  simp [Statement, fieldsOf_encode, instrFields, Instr.mnemonic]

theorem encode (number : VWord) (policy : Policy) : Statement (.encode number policy) := by
  simp [Statement, fieldsOf_encode, instrFields, Instr.mnemonic]

theorem encodeU1 (number : VWord) (policy : Policy) : Statement (.encodeU1 number policy) := by
  simp [Statement, fieldsOf_encode, instrFields, Instr.mnemonic]

theorem encodeU2 (number : VWord) (policy : Policy) : Statement (.encodeU2 number policy) := by
  simp [Statement, fieldsOf_encode, instrFields, Instr.mnemonic]

end Sys2Proof.Laws.F
end

