-- ==== Sys2Proof/Laws/Step.lean ====
section
/-! SUPPORT. What one step can do. -/

namespace Sys2Proof.Machine

theorem step_wait {s : State} (h : s.inp = []) : step s = .next s := by
  unfold step; rw [h]; rfl

theorem step_reset {s : State} {rest : List HostEvent} (h : s.inp = .reset :: rest) :
    step s = .next (s.takeEvent rest).resetBlock := by
  unfold step; rw [h]; rfl

theorem step_command {s : State} {word : Cmd} {rest : List HostEvent} (h : s.inp = .command word :: rest) :
    step s = runWord word (s.takeEvent rest) := by
  unfold step; rw [h]; rfl

/-- A step waits, resets, or carries out the next command word. -/
theorem step_cases (s : State) :
    (s.inp = [] ∧ step s = .next s) ∨
    (∃ rest, s.inp = .reset :: rest ∧ step s = .next (s.takeEvent rest).resetBlock) ∨
    (∃ word rest, s.inp = .command word :: rest ∧ step s = runWord word (s.takeEvent rest)) := by
  rcases h : s.inp with _ | ⟨_ | _, rest⟩
  · exact .inl ⟨rfl, step_wait h⟩
  · exact .inr (.inr ⟨_, rest, rfl, step_command h⟩)
  · exact .inr (.inl ⟨rest, rfl, step_reset h⟩)

/-- Two results that are both next states have the same one. -/
theorem next_inj {s t : State} (h : (Host.Outcome.next s : Result) = .next t) : s = t := by
  cases h; rfl

end Sys2Proof.Machine
end

