-- ==== Sys2Proof/Machine/Assembler.lean ====
section
/-! DEFINITION. The assembler lines and pseudo-instructions of 30_encoding.md R55, R56: a line of characters to the
one command word it stands for. A line outside R55's grammar, or with an operand too large for its field, stands
for no word (log 15). -/

namespace Sys2Proof.Machine

/-- The value of a digit character in a base up to sixteen. -/
def charValue (base : Nat) (c : Char) : Option Nat :=
  let n := c.toNat
  let v := if 48 ≤ n ∧ n ≤ 57 then n - 48
    else if 65 ≤ n ∧ n ≤ 70 then n - 55
    else if 97 ≤ n ∧ n ≤ 102 then n - 87
    else 16
  if v < base then some v else none

/-- Digit characters read from the left onto the value so far. -/
def digitsValue (base : Nat) : Nat → List Char → Option Nat
  | acc, [] => some acc
  | acc, c :: rest =>
    match charValue base c with
    | some v => digitsValue base (acc * base + v) rest
    | none => none

/-- A number: decimal, `0x` hexadecimal or `0b` binary (R55). -/
def numberOf : List Char → Option Nat
  | [] => none
  | '0' :: 'x' :: c :: rest => digitsValue 16 0 (c :: rest)
  | '0' :: 'b' :: c :: rest => digitsValue 2 0 (c :: rest)
  | c :: rest => digitsValue 10 0 (c :: rest)

/-- A number that fits an unsigned operand field of `bits` bits (30_encoding.md R48). -/
def operandOf (bits : Nat) (cs : List Char) : Option (BitVec bits) :=
  match numberOf cs with
  | some n => if n < 2 ^ bits then some (BitVec.ofNat bits n) else none
  | none => none

/-- The line without leading blanks. -/
def dropBlanks (cs : List Char) : List Char := cs.dropWhile (fun c => c = ' ' ∨ c = '\t')

/-- The line without blanks at either end. -/
def trimBlanks (cs : List Char) : List Char := (dropBlanks (dropBlanks cs).reverse).reverse

/-- The pieces between commas. -/
def splitCommas : List Char → List (List Char)
  | [] => [[]]
  | c :: rest =>
    match splitCommas rest with
    | [] => [[c]]
    | p :: ps => if c = ',' then [] :: p :: ps else (c :: p) :: ps

/-- The mnemonic and the operands of a line; `;` starts a comment (R55). -/
def splitLine (cs : List Char) : List Char × List (List Char) :=
  let line := trimBlanks (cs.takeWhile (fun c => c ≠ ';'))
  let isBlank := fun c : Char => decide (c = ' ' ∨ c = '\t')
  let operands := trimBlanks (line.dropWhile (fun c => !isBlank c))
  (line.takeWhile (fun c => !isBlank c),
    if operands = [] then [] else (splitCommas operands).map trimBlanks)

/-- `<policy>`: `V` Validate, `I` Ignore (R55). -/
def policyOf : List Char → Option Policy
  | ['V'] => some .validate
  | ['I'] => some .ignore
  | _ => none

/-- The command of an APPEND of a field, as the pseudo-instructions expand (R56). -/
def appendOf (f : PatternField) : Instr := .append f.value f.width

/-- The APPEND of a digit's pattern from a table, for a digit 0 to 9 (R56). -/
def patternOf (t : Vector (BitVec 7) 10) (cs : List Char) : Option Instr :=
  match numberOf cs with
  | some d => if d < 10 then some (appendOf (digitBars (tableEntry t d))) else none
  | none => none

/-- `ENCODE <sym>, <number>, <policy>` with `<sym>` 0, 1 or 2 (R55). -/
def encodeOf (sym : List Char) (number : VWord) (policy : Policy) : Option Instr :=
  match numberOf sym with
  | some 0 => some (.encode number policy)
  | some 1 => some (.encodeU1 number policy)
  | some 2 => some (.encodeU2 number policy)
  | _ => none

/-- The command of a split line: R55's eight forms and R56's seven pseudo-instructions. -/
def commandOf (mnemonic : List Char) (operands : List (List Char)) : Option Instr :=
  match mnemonic, operands with
  | ['C', 'R', 'E', 'A', 'T', 'E'], [a] => (operandOf 16 a).map Instr.create
  | ['A', 'P', 'P', 'E', 'N', 'D'], [v, w] =>
    (operandOf 64 v).bind fun v => (operandOf 16 w).map fun w => .append v w
  | ['S', 'E', 'T', 'B', 'I', 'T', 'S'], [v, a, w] =>
    (operandOf 64 v).bind fun v => (operandOf 16 a).bind fun a => (operandOf 16 w).map fun w => .setbits v a w
  | ['S', 'E', 'T', 'B', 'I', 'T'], [a, b] =>
    (operandOf 16 a).bind fun a => (operandOf 1 b).map fun b => .setbit a (b.getLsbD 0)
  | ['R', 'A', 'W', 'B', 'Y', 'T', 'E', 'S'], [] => some .rawbytes
  | ['B', 'I', 'T', 'C', 'O', 'U', 'N', 'T'], [] => some .bitcount
  | ['T', 'O', 'B', 'I', 'T', 'S', 'T', 'R'], [] => some .tobitstr
  | ['E', 'N', 'C', 'O', 'D', 'E'], [s, n, p] =>
    (operandOf 64 n).bind fun n => (policyOf p).bind fun p => encodeOf s n p
  | ['Q', 'U', 'I', 'E', 'T'], [] => some (appendOf quietZone)
  | ['G', 'U', 'A', 'R', 'D'], [] => some (appendOf guardBars)
  | ['C', 'E', 'N', 'T', 'E', 'R'], [] => some (appendOf centerBars)
  | ['L', 'P', 'A', 'T'], [d] => patternOf tables.ltab d
  | ['G', 'P', 'A', 'T'], [d] => patternOf tables.gtab d
  | ['R', 'P', 'A', 'T'], [d] => patternOf tables.rtab d
  | ['G', 'E', 'N', 'E', 'R', 'A', 'T', 'E'], [n] => (operandOf 64 n).map fun n => .encode n .validate
  | _, _ => none

/-- The word that a line assembles to (R55). -/
def assembleLine (cs : List Char) : Option Cmd :=
  (commandOf (splitLine cs).1 (splitLine cs).2).map encode

end Sys2Proof.Machine
end

