-- ==== Sys2Proof/Machine/Generate.lean ====
section
/-! DEFINITION. The host's use of the block for one `generate` call (44_host_boundary.md R101): ENCODE, and after OK
BITCOUNT and RAWBYTES. It is host-side and no part of the machine: `step` does not use it (log 16). The serializer
that follows is out of scope (00_scope.md R4). -/

namespace Sys2Proof.Machine

/-- What the host has after one `generate`: the image width, the image row and the display digits, or one of the two
reported outcomes (R101). -/
inductive GenerateResult where
  | success (width : Half) (row : List Byte) (digits : List Byte)
  | mismatch (expectedDigit : Half)
  | unsupported
  /-- The model's own: ENCODE was answered with a status for which R101 has no branch (ILLEGAL_COMMAND, NO_BUFFER,
  BOUNDS_FAULT, FAULTED). Marked DESIGN CHOICE; log 18. -/
  | refused (st : Status)
  deriving DecidableEq, Repr

/-- The host issues one command and reads its response. -/
def issue (i : Instr) (s : State) : Option (Response × State) :=
  match step (s.offerWord (encode i)) with
  | .next t =>
    match t.out.getLast? with
    | some r => some (r, t)
    | none => none
  | .fault _ => none
  | .refused _ => none

/-- The two read-outs after a successful ENCODE. -/
def readOut (digits : List Byte) (s : State) : Option GenerateResult :=
  match issue .bitcount s with
  | some (count, t) =>
    match issue .rawbytes t with
    | some (row, _) => some (.success count.val row.data digits)
    | none => none
  | none => none

/-- One `generate(symbology, number, checkDigitPolicy)` with the ENCODE command `i`: R101's three branches. For any other
status R101 has none; the host then stops and reports the status. Marked DESIGN CHOICE; log 18. -/
def generate (i : Instr) (s : State) : Option GenerateResult :=
  match issue i s with
  | some (r, t) =>
    match r.st with
    | .ok => readOut r.data t
    | .checkDigitMismatch => some (.mismatch r.val)
    | .unsupportedSymbology => some .unsupported
    | other => some (.refused other)
  | none => none

end Sys2Proof.Machine
end

