-- ==== Sys2Proof/Tests/Slice0.lean ====
section
/-! SUPPORT. Tests: expected results are those of 95_test_vectors.md (section and line named) or hand calculation from
the rule named; then, for every statement with hypotheses, a state and operands that meet them. -/

namespace Sys2Proof.Tests

open Sys2Proof Sys2Proof.Machine Sys2Proof.Config

/-- A block with a buffer of this capacity, cursor and content. -/
def made (cap cur : Half) (buf : Memory) : State := { State.reset with bv := true, cap := cap, cur := cur, buf := buf }

/-- The state a result leads to. -/
def after (r : Result) : State :=
  match r with
  | .next t => t
  | .fault _ => State.reset
  | .refused _ => State.reset

/-- The response a result ends with. -/
def lastOf (r : Result) : Option Response := (after r).out.getLast?

/-- The buffer's bytes after a result. -/
def bytesOf (r : Result) : List Byte := (after r).buf.readBytes (after r).nb

/-! ### Well-formedness -/

theorem test_wf_setbits_64 : (Instr.setbits 0 0 64).wf = true := by decide
/-- 2.5 X6: SETBITS wider than 64 is no legal command. -/
theorem test_wf_refuses_setbits_65 : (Instr.setbits 0 0 65).wf = false := by decide

/-! ### Decoding: words written out from 30_encoding.md R45, R47 (2.2 to 2.4) -/

/-- OP 1, A = 20. -/
theorem test_decode_create : decode (0x1#4 ++ 0#4 ++ 0#24 ++ 20#16 ++ 0#16 ++ 0#64) = .ok (.create 20) := by decide
/-- OP 2, W = 9. -/
theorem test_decode_append : decode 0x20000000000000090000000000000005 = .ok (.append 5 9) := by decide
/-- OP 3, A = 94, W = 7 (P4). -/
theorem test_decode_setbits : decode 0x30000000005E00070000000000000066 = .ok (.setbits 0x66 94 7) := by decide
/-- OP 4, MOD = 0 and 1 (P4). -/
theorem test_decode_setbit_0 : decode 0x40000000007000000000000000000000 = .ok (.setbit 112 false) := by decide
theorem test_decode_setbit_1 : decode 0x41000000007000000000000000000000 = .ok (.setbit 112 true) := by decide
theorem test_decode_rawbytes : decode 0x50000000000000000000000000000000 = .ok .rawbytes := by decide
theorem test_decode_bitcount : decode 0x60000000000000000000000000000000 = .ok .bitcount := by decide
theorem test_decode_tobitstr : decode 0x70000000000000000000000000000000 = .ok .tobitstr := by decide
/-- OP 8, MOD[2] = 0 and 1. -/
theorem test_decode_encode_v : decode 0x8000000000000000000003A4CEEFADAB = .ok (.encode 4006381333931 .validate) := by
  decide
theorem test_decode_encode_i : decode 0x8400000000000000FFFFFFFFFFFFFFFF = .ok (.encode 18446744073709551615 .ignore) := by
  decide
theorem test_decode_encodeU1 : decode 0x8100000000000000000003A4CEEFADAB = .ok (.encodeU1 4006381333931 .validate) := by
  decide
theorem test_decode_encodeU2 : decode 0x8600000000000000000003A4CEEFADAA = .ok (.encodeU2 4006381333930 .ignore) := by
  decide
/-- 2.5 X1 to X3. -/
theorem test_illegal_opcodes : decode 0 = .error .opcode ∧ decode 0x90000000000000000000000000000000 = .error .opcode ∧
    decode 0xF0000000000000000000000000000000 = .error .opcode := by decide
/-- 2.5 X4. -/
theorem test_illegal_reserved : decode 0x10000001000800000000000000000000 = .error .reserved := by decide
/-- 2.5 X5, X8 to X11. -/
theorem test_illegal_unused : decode 0x10000000000800010000000000000000 = .error .unusedField ∧
    decode 0x8800000000000000000003A4CEEFADAB = .error .unusedField ∧
    decode 0x60000000000000000000000000000001 = .error .unusedField ∧
    decode 0x42000000000300000000000000000000 = .error .unusedField ∧
    decode 0x20000000000100030000000000000005 = .error .unusedField := by decide
/-- 2.5 X6 and its legal neighbour. -/
theorem test_illegal_setbits_width : decode 0x30000000000000410000000000000000 = .error .setbitsWidth ∧
    decode 0x30000000000000400000000000000000 = .ok (.setbits 0 0 64) := by decide
/-- 2.5 X7. -/
theorem test_illegal_sym : decode 0x8300000000000000000003A4CEEFADAB = .error .encodeSym := by decide
/-- No word matches two rows of R49. -/
theorem test_rows_disjoint : opcodeRows.Pairwise
    (fun r q => (r.pattern ^^^ q.pattern) &&& (r.mask &&& q.mask) ≠ 0) := by decide
theorem test_table_word : decodeTableWord 128 0x41000000001300000000000000000000 = some (.setbit 19 true) := by decide
/-- R46: byte 0 holds OP and MOD. -/
theorem test_command_bytes : (commandBytes 0x41000000001300000000000000000000).take 6 = [0x41, 0, 0, 0, 0, 0x13] := by
  decide

/-! ### One step per command (2.1 to 2.4) -/

/-- 2.3 line 2. -/
theorem test_create : bytesOf (exec (.create 20) (made 8 8 [(0, 0xFF), (2, 0x11)])) = [0, 0, 0] := by decide
/-- 2.4 B11's first command: the largest capacity. -/
theorem test_create_largest : (after (exec (.create 65535) State.reset)).nb = 8192 := by decide
/-- 2.3 line 4. -/
theorem test_append : bytesOf (exec (.append 0x7F 7) (made 20 3 [(0, 0xA0)])) = [0xBF, 0xC0, 0x00] := by decide
set_option maxRecDepth 10000 in
/-- 2.4 B2: the patched bit in the skipped positions survives. -/
theorem test_append_wide : bytesOf (exec (.append 0x8000000000000001 72) (made 80 0 [(0, 0x10)])) =
    [0x10, 0x80, 0, 0, 0, 0, 0, 0, 0x01, 0x00] := by decide
/-- 2.3 line 5. -/
theorem test_setbits : bytesOf (exec (.setbits 0b0110 6 4) (made 20 10 [(0, 0xBF), (1, 0xC0)])) =
    [0xBD, 0x80, 0x00] := by decide
/-- 2.4 B9 and B8: width 0 faults beyond the capacity only. -/
theorem test_setbits_zero_width : (after (exec (.setbits 0 21 0) (made 20 0 []))).flt = true ∧
    (after (exec (.setbits 0 20 0) (made 20 0 []))).flt = false := by decide
/-- 2.3 line 6. -/
theorem test_setbit : bytesOf (exec (.setbit 19 true) (made 20 10 [(0, 0xBD), (1, 0x80)])) = [0xBD, 0x80, 0x10] := by
  decide
/-- 2.3 line 13: a padding position faults and nothing is written. -/
theorem test_setbit_padding : (after (exec (.setbit 20 true) (made 20 20 [(0, 0xBD)]))).flt = true ∧
    bytesOf (exec (.setbit 20 true) (made 20 20 [(0, 0xBD)])) = [0xBD, 0, 0] := by decide
/-- 2.3 line 9. -/
theorem test_rawbytes : lastOf (exec .rawbytes (made 20 10 [(0, 0xBD), (1, 0x80), (2, 0x10)])) =
    some ⟨.ok, 3, [0xBD, 0x80, 0x10]⟩ := by decide
/-- 2.3 line 1. -/
theorem test_rawbytes_no_buffer : lastOf (exec .rawbytes State.reset) = some ⟨.noBuffer, 0, []⟩ := by decide
/-- 2.3 line 8. -/
theorem test_bitcount : lastOf (exec .bitcount (made 20 10 [])) = some ⟨.ok, 10, []⟩ := by decide
/-- 2.3 line 7. -/
theorem test_tobitstr : lastOf (exec .tobitstr (made 20 10 [(0, 0xBD), (1, 0x80), (2, 0x10)])) =
    some ⟨.ok, 10, [0x31, 0x30, 0x31, 0x31, 0x31, 0x31, 0x30, 0x31, 0x31, 0x30]⟩ := by decide
set_option maxRecDepth 10000 in
/-- 2.2 E1. -/
theorem test_encode : bytesOf (exec (.encode 4006381333931 .validate) State.reset) =
    [0x00, 0x51, 0xA9, 0xD7, 0xBD, 0x12, 0xCD, 0x50, 0xA1, 0x42, 0xE9, 0x0B, 0x35, 0x00, 0x00] := by decide
/-- S2. -/
theorem test_encode_mismatch : lastOf (exec (.encode 4006381333930 .validate) (made 8 0 [])) =
      some ⟨.checkDigitMismatch, 1, []⟩ ∧
    (after (exec (.encode 4006381333930 .validate) (made 8 0 []))).bv = false := by decide
/-- S3. -/
theorem test_encodeU1 : lastOf (exec (.encodeU1 4006381333931 .validate) (made 8 0 [])) =
      some ⟨.unsupportedSymbology, 0, []⟩ ∧
    (after (exec (.encodeU1 4006381333931 .validate) (made 8 0 []))).bv = false := by decide
/-- S3. -/
theorem test_encodeU2 : lastOf (exec (.encodeU2 4006381333930 .ignore) (made 8 0 [])) =
      some ⟨.unsupportedSymbology, 0, []⟩ ∧
    (after (exec (.encodeU2 4006381333930 .ignore) (made 8 0 []))).bv = false := by decide

/-! ### One host event -/

/-- 2.3 line 15: FAULTED before ILLEGAL_COMMAND and before the command. -/
theorem test_step_faulted : lastOf (step { made 20 20 [] with flt := true, inp := [.command 0] }) =
    some ⟨.faulted, 0, []⟩ := by decide
/-- 2.5 X7 with a buffer present: the buffer stays. -/
theorem test_step_illegal : lastOf (step { made 8 0 [] with
      inp := [.command 0x8300000000000000000003A4CEEFADAB] }) = some ⟨.illegalCommand, 0, []⟩ ∧
    (after (step { made 8 0 [] with inp := [.command 0x8300000000000000000003A4CEEFADAB] })).bv = true := by decide
/-- P5: reset clears the fault and discards the buffer. -/
theorem test_step_reset : after (step { made 113 113 [(1, 0x51)] with flt := true, inp := [.reset] }) = State.reset := by
  decide

/-! ### The pure functions -/

/-- 2.1, the second line: the negative difference of R84. -/
theorem test_expected_19 : checksum (digits 19) = 2 ∧ expected (digits 19) = 7 := by decide
/-- 2.1, the last line: a number longer than thirteen digits. -/
theorem test_digits_long : digits 18446744073709551615 = [4, 0, 7, 3, 7, 0, 9, 5, 5, 1, 6, 1, 5] := by decide
/-- 2.1, the third line: one leading zero is dropped, the second kept. -/
theorem test_display : display (digits 36000291452) = [0, 3, 6, 0, 0, 0, 2, 9, 1, 4, 5, 2] := by decide
/-- R86: RTAB is the complement of LTAB, and GTAB is RTAB in reverse bit order. -/
theorem test_tables : ∀ x : Fin 10, tableEntry tables.rtab x = ~~~(tableEntry tables.ltab x) ∧
    ∀ k : Fin 7, (tableEntry tables.gtab x).getLsbD k = (tableEntry tables.rtab x).getLsbD (6 - k) := by decide
/-- GK1: row 0 of PAR is all L, every row starts with L, rows 1 to 9 have three G. -/
theorem test_parity : (∀ f : Fin 10, parity tables f 0 = false) ∧
    ∀ f : Fin 10, ((List.range 6).filter (fun k => parity tables f k)).length = if f.val = 0 then 0 else 3 := by decide
/-- 2.4 B12: `or` and overwrite over a patched region. -/
theorem test_append_modes :
    ((made 16 0 [(0, 0x3C)]).appendBits .overwrite .leading 0x81 8).buf.readBytes 2 = [0x81, 0x00] ∧
    ((made 16 0 [(0, 0x3C)]).appendBits .orIn .leading 0x81 8).buf.readBytes 2 = [0xBD, 0x00] := by decide
set_option maxRecDepth 10000 in
/-- 93_implementation_defined.md U2: the trailing placement. -/
theorem test_wide_trailing :
    ((made 80 0 []).appendBits .overwrite .trailing 0xFFFFFFFFFFFFFFFF 72).buf.readBytes 10 =
      [0xFF, 0xFF, 0xFF, 0xFF, 0xFF, 0xFF, 0xFF, 0xFF, 0x00, 0x00] := by decide
/-- 2.4 B10's line, P3 line 7 and R56, S1. -/
theorem test_assemble : assembleLine "SETBITS 0xFFFFF, 1, 20 ; B10".toList = some 0x300000000001001400000000000FFFFF ∧
    assembleLine "GPAT 8".toList = some 0x20000000000000070000000000000009 ∧
    assembleLine "GENERATE 4006381333931".toList = some 0x8000000000000000000003A4CEEFADAB ∧
    assembleLine "LPAT 10".toList = none := by decide
/-- P1's width, row and digits through the host's sequence of R101 (here the mismatch of S2 and the unsupported S3). -/
theorem test_generate : generate (.encode 4006381333930 .validate) State.reset = some (.mismatch 1) ∧
    generate (.encodeU1 4006381333931 .validate) State.reset = some .unsupported := by decide

/-! ### Witnesses: for each statement with hypotheses, inputs that meet all of them, at the boundary of each clause -/

/-- A block with a 20-bit buffer, the cursor at 10, and this next on the command port. -/
def waiting (e : HostEvent) : State := { made 20 10 [(0, 0xBD)] with inp := [e] }

theorem witness_StepRunsDecodedCommand : (waiting (.command (encode .bitcount))).inp = [.command (encode .bitcount)] ∧
    decode (encode .bitcount) = .ok .bitcount := by decide
theorem witness_DecodeOfEncode : (Instr.setbits 1 65535 64).wf = true := by decide
theorem witness_EncodeOfDecode : decode 0x3000000000000040FFFFFFFFFFFFFFFF =
    .ok (.setbits 0xFFFFFFFFFFFFFFFF 0 64) := by decide
theorem witness_OfferedWordRunsItsCommand : (Instr.encodeU2 0 .ignore).wf = true := by decide
theorem witness_IllegalWordsAreRefused : (waiting (.command 0)).inp = .command 0 :: [] ∧ (waiting (.command 0)).flt = false ∧
    decode 0 = .error .opcode := by decide
theorem witness_FaultedRefusesEveryWord : (waiting (.command 0)).latchFault.inp = .command 0 :: [] ∧
    (waiting (.command 0)).latchFault.flt = true := by decide
theorem witness_NoBufferRefusal : (Instr.setbits 0 0 64).wf = true ∧ State.reset.flt = false ∧ State.reset.bv = false ∧
    (Instr.setbits 0 0 64).mnemonic ∈ ["APPEND", "SETBITS", "SETBIT", "RAWBYTES", "BITCOUNT", "TOBITSTR"] := by decide
theorem witness_NoBufferRefusal_converse : ∃ t, exec .tobitstr State.reset = .next t ∧
    t.out = State.reset.out ++ [⟨.noBuffer, 0, []⟩] := ⟨_, rfl, rfl⟩
/-- The first width, start and index past the capacity of 20. -/
theorem witness_BoundsFaultLatches : (made 20 10 []).flt = false ∧ (made 20 10 []).bv = true ∧
    (made 20 10 []).cap.toNat < (made 20 10 []).cur.toNat + (11 : Half).toNat ∧
    ((0 : Half).toNat ≤ 64 ∧ (made 20 10 []).cap.toNat < (21 : Half).toNat + (0 : Half).toNat) ∧
    (made 20 10 []).cap.toNat ≤ (20 : Half).toNat := by decide
theorem witness_BoundsFaultLatches_converse : ∃ t, exec (.setbit 20 true) (made 20 10 []) = .next t ∧
    t.out = (made 20 10 []).out ++ [⟨.boundsFault, 0, []⟩] := ⟨_, rfl, rfl⟩
theorem witness_MismatchReportsExpectedDigit : (made 20 10 []).flt = false ∧
    checksum (digits (4006381333930 : VWord).toNat) ≠ 0 := by decide
theorem witness_MismatchReportsExpectedDigit_converse : ∃ t, exec (.encode 4006381333930 .validate) (made 20 10 []) = .next t ∧
    t.out = (made 20 10 []).out ++ [⟨.checkDigitMismatch, 1, []⟩] := ⟨_, rfl, rfl⟩
theorem witness_UnsupportedSymbologyOutcome : (made 20 10 []).flt = false := by decide
theorem witness_UnsupportedSymbologyOutcome_converse : ∃ t, exec (.encodeU2 0 .ignore) (made 20 10 []) = .next t ∧
    t.out = (made 20 10 []).out ++ [⟨.unsupportedSymbology, 0, []⟩] := ⟨_, rfl, rfl⟩
theorem witness_StatusByPriority : (waiting (.command 0)).inp = .command 0 :: [] := by decide
theorem witness_OneResponsePerCommand : (waiting (.command (encode (.create 8)))).inp = .command (encode (.create 8)) :: [] ∧
    decode (encode (.create 8)) = .ok (.create 8) ∧
    (Instr.create 8).mnemonic ∈ ["CREATE", "APPEND", "SETBITS", "SETBIT"] ∧ Instr.bitcount.mnemonic = "BITCOUNT" := by
  decide
theorem witness_OneResponsePerCommand_mismatch :
    ∃ t, step (waiting (.command 0x8000000000000000000003A4CEEFADAA)) = .next t ∧
      decode 0x8000000000000000000003A4CEEFADAA = .ok (.encode 4006381333930 .validate) ∧
      t.out = [⟨.checkDigitMismatch, 1, []⟩] := ⟨_, rfl, by decide, rfl⟩
theorem witness_FaultBitIsSticky_cleared : ∃ t, step (waiting .reset).latchFault = .next t ∧
    (waiting .reset).latchFault.flt = true ∧ t.flt = false := ⟨_, rfl, rfl, rfl⟩
theorem witness_FaultBitIsSticky_set : ∃ t, step (waiting (.command 0x41000000001400000000000000000000)) = .next t ∧
    (waiting (.command 0x41000000001400000000000000000000)).flt = false ∧ t.flt = true := ⟨_, rfl, rfl, rfl⟩
theorem witness_FaultBitIsSticky_reset : (waiting .reset).inp = .reset :: [] := by decide
theorem witness_FaultBitIsSticky_refused : ∃ t, step (waiting (.command 0)).latchFault = .next t ∧
    (waiting (.command 0)).latchFault.inp = .command 0 :: [] ∧ (waiting (.command 0)).latchFault.flt = true :=
  ⟨_, rfl, rfl, rfl⟩
theorem witness_ResetEventAndWaiting : (waiting .reset).inp = .reset :: [] ∧ State.reset.inp = [] := by decide
/-- A state with padding positions 20 to 23 that meets the invariant, and one without a buffer. -/
theorem witness_Inv : (made 20 10 [(0, 0xBD)]).Inv := by
  refine ⟨by decide, fun _ => ⟨by decide, fun p h1 h2 => ?_⟩⟩
  have h1 : 20 ≤ p := h1
  have h2 : p < 24 := h2
  interval_cases p <;> decide
theorem witness_Inv_unbuffered : (made 20 10 [(0, 0xBD)]).dropBuffer.Inv := ⟨by decide, fun h => nomatch h⟩
theorem witness_StepKeepsInvariant : ∃ t, step (made 20 10 [(0, 0xBD)]) = .next t := ⟨_, rfl⟩
/-- SETBIT 3 and an APPEND of nine bits leave position 0 of a buffer alone only if they do not reach it: position 19 is
left by both. -/
theorem witness_UnwrittenBitsReadZero : ∃ m t, (made 8 8 [(2, 0xFF)]).flt = false ∧
    exec (.create 20) (made 8 8 [(2, 0xFF)]) = .next m ∧ 19 < (20 : Half).toNat ∧
    leavesPosition 19 [.setbit 3 true, .append 0x1FF 9] m ∧ execAll [.setbit 3 true, .append 0x1FF 9] m = .next t := by
  refine ⟨_, _, rfl, rfl, by decide, ⟨rfl, by simp [writesPosition], fun t h => ?_⟩, rfl⟩
  cases h
  exact ⟨rfl, fun hw => absurd hw.2 (by decide), fun _ _ => trivial⟩
/-- Two states that differ in every field the statement calls unobservable: without a buffer in CAP, CUR and BUF, with
one in a byte from NB on. -/
theorem witness_UnspecifiedStorageIsUnobservable : State.reset.Agree (made 20 10 [(0, 0xBD)]).dropBuffer ∧
    (made 8 0 [(0, 0xBD)]).Agree (made 8 0 [(0, 0xBD), (1, 0x7F)]) := by
  refine ⟨⟨rfl, rfl, rfl, rfl, fun h => nomatch h⟩, ⟨rfl, rfl, rfl, rfl, fun _ => ⟨rfl, rfl, fun a ha => ?_⟩⟩⟩
  have ha : a < 1 := ha
  interval_cases a
  decide
theorem witness_UnspecifiedStorageIsUnobservable_inv : (made 8 0 [(0, 0xBD)]).Inv ∧ (made 8 0 [(0, 0xBD), (1, 0x7F)]).Inv ∧
    State.reset.Inv ∧ (∃ t t', step (made 8 0 [(0, 0xBD)]) = .next t ∧ step (made 8 0 [(0, 0xBD), (1, 0x7F)]) = .next t') := by
  refine ⟨⟨by decide, fun _ => ⟨by decide, fun p h1 h2 => ?_⟩⟩, ⟨by decide, fun _ => ⟨by decide, fun p h1 h2 => ?_⟩⟩,
    ⟨by decide, fun h => nomatch h⟩, ⟨_, _, rfl, rfl⟩⟩
  all_goals
    have h1 : 8 ≤ p := h1
    have h2 : p < 8 := h2
    omega
theorem witness_PortsAreNotState : ∃ t, exec .bitcount (made 20 10 []) = .next t ∧
    t.out = (made 20 10 []).out ++ [⟨.ok, 10, []⟩] := ⟨_, rfl, rfl⟩
theorem witness_CreateMakesZeroedBuffer : (made 20 10 []).flt = false := by decide
/-- Width 64 filling the buffer exactly, and width 0 at the end of it; of AppendExtendsBitString too. -/
theorem witness_AppendLaw : (made 64 0 []).flt = false ∧ (made 64 0 []).bv = true ∧ (64 : Half).toNat ≤ 64 ∧
    (made 64 0 []).cur.toNat + (64 : Half).toNat ≤ (made 64 0 []).cap.toNat ∧
    (made 64 64 []).cur.toNat + (0 : Half).toNat ≤ (made 64 64 []).cap.toNat := by decide
/-- Width 65, the narrowest wide append, filling the buffer exactly. -/
theorem witness_WideAppendSkipsLeading : (made 75 10 []).flt = false ∧ (made 75 10 []).bv = true ∧ 64 < (65 : Half).toNat ∧
    (made 75 10 []).cur.toNat + (65 : Half).toNat ≤ (made 75 10 []).cap.toNat := by decide
/-- The last 64 positions; width 0 at the capacity; the narrowest illegal width. -/
theorem witness_SetbitsOverwritesRun : (made 100 0 []).flt = false ∧ (made 100 0 []).bv = true ∧ (64 : Half).toNat ≤ 64 ∧
    (36 : Half).toNat + (64 : Half).toNat ≤ (made 100 0 []).cap.toNat ∧
    (100 : Half).toNat + (0 : Half).toNat ≤ (made 100 0 []).cap.toNat ∧ 64 < (65 : Half).toNat := by decide
/-- The last legal position. -/
theorem witness_SetbitWritesOneBit : (made 20 0 []).flt = false ∧ (made 20 0 []).bv = true ∧
    (19 : Half).toNat < (made 20 0 []).cap.toNat := by decide
/-- Of RawbytesReturnsWholeBuffer and CursorReadOuts. -/
theorem witness_ReadOuts : (made 20 10 [(0, 0xBD)]).flt = false ∧ (made 20 10 [(0, 0xBD)]).bv = true := by decide
theorem witness_ReadsHaveNoSideEffect : ∃ t u, Instr.bitcount.mnemonic ∈ ["RAWBYTES", "BITCOUNT", "TOBITSTR"] ∧
    exec .bitcount (made 20 10 []) = .next t ∧ t.out = (made 20 10 []).out ++ [⟨.ok, 10, []⟩] ∧
    exec .bitcount t = .next u ∧ u.out = t.out ++ [⟨.ok, 10, []⟩] := ⟨_, _, by decide, rfl, rfl, rfl, rfl⟩
theorem witness_PatchesAreIdempotent : ∃ t u, (Instr.setbit 19 true).mnemonic ∈ ["SETBITS", "SETBIT"] ∧
    exec (.setbit 19 true) (made 20 10 []) = .next t ∧ exec (.setbit 19 true) t = .next u := ⟨_, _, by decide, rfl, rfl⟩
theorem witness_CapacityChangesOnlyWithNewBuffer : ∃ t, exec (.create 8) (made 20 10 []) = .next t ∧
    t.cap ≠ (made 20 10 []).cap := ⟨_, rfl, by decide⟩
theorem witness_CursorMovesOnlyByAppend : ∃ t, replacesBuffer (.append 1 10) = false ∧
    exec (.append 1 10) (made 20 10 []) = .next t ∧ t.cur ≠ (made 20 10 []).cur := ⟨_, rfl, rfl, by decide⟩
/-- The first and the last position of a written region, and the two beside it. -/
theorem witness_AppendModesDifferOnlyOverOnes : ((made 20 3 []).cur.toNat ≤ 3 ∧ 9 < (made 20 3 []).cur.toNat + min (7 : Half).toNat 64) ∧
    ¬ ((made 20 3 []).cur.toNat ≤ 2) ∧ ¬ (10 < (made 20 3 []).cur.toNat + min (7 : Half).toNat 64) := by decide
/-- Of ChecksumWeights, ExpectedDigitIsTheUniqueRepair and DisplayDropsOneLeadingZero. -/
theorem witness_IsDigits : IsDigits [4, 0, 0, 6, 3, 8, 1, 3, 3, 3, 9, 3, 1] ∧ IsDigits [0, 0, 3, 6, 0, 0, 0, 2, 9, 1, 4, 5, 2] ∧
    digit [0, 0, 3, 6, 0, 0, 0, 2, 9, 1, 4, 5, 2] 0 = 0 ∧ digit [4, 0, 0, 6, 3, 8, 1, 3, 3, 3, 9, 3, 1] 0 ≠ 0 ∧
    checksum [4, 0, 0, 6, 3, 8, 1, 3, 3, 3, 9, 3, 1] = 0 := by
  refine ⟨⟨rfl, by decide⟩, ⟨rfl, by decide⟩, by decide, by decide, by decide⟩
/-- Validate with checksum 0, and Ignore with a nonzero checksum; of EncodeIsCreateAndAppends too. -/
theorem witness_EncodeSucceeds : State.reset.flt = false ∧ checksum (digits (4006381333931 : VWord).toNat) = 0 ∧
    checksum (digits (4006381333930 : VWord).toNat) ≠ 0 := by decide
theorem witness_EncodeWritesPattern : ∃ t, exec (.encode 0 .validate) State.reset = .next t ∧
    checksum (digits (0 : VWord).toNat) = 0 := ⟨_, rfl, by decide⟩
theorem witness_EncodeLaws : ∃ t t', exec (.encode 4006381333930 .ignore) State.reset = .next t ∧
    exec (.encode 4006381333930 .ignore) (made 20 10 []) = .next t' ∧
    lastOf (.next t) = some ⟨.ok, 113, [4, 0, 0, 6, 3, 8, 1, 3, 3, 3, 9, 3, 0]⟩ := ⟨_, _, rfl, rfl, rfl⟩
theorem witness_EncodeTakesTheBuffer : ∃ t t', (Instr.encode 0 .validate).mnemonic ∈ ["ENCODE", "ENCODE.U1", "ENCODE.U2"] ∧
    (made 20 10 []).flt = false ∧ exec (.encode 0 .validate) (made 20 10 []) = .next t ∧ t.bv = true ∧
    exec (.encodeU1 0 .validate) (made 20 10 []) = .next t' ∧ t'.bv = false ∧ 1 ≤ (1 : Half).toNat :=
  ⟨_, _, by decide, rfl, rfl, rfl, rfl, rfl, by decide⟩

/-- One word for each kind of outcome: OK, reported, refused, faulting. -/
theorem witness_OutcomeKindsFixTheChange :
    (∃ t, step (waiting (.command 0x60000000000000000000000000000000)) = .next t ∧ t.out = [⟨.ok, 10, []⟩]) ∧
    (∃ t, step (waiting (.command 0x8600000000000000000003A4CEEFADAA)) = .next t ∧
      t.out = [⟨.unsupportedSymbology, 0, []⟩]) ∧
    (∃ t, step (waiting (.command 0)) = .next t ∧ t.out = [⟨.illegalCommand, 0, []⟩]) ∧
    (∃ t, step (waiting (.command 0x41000000001400000000000000000000)) = .next t ∧
      t.out = [⟨.boundsFault, 0, []⟩]) :=
  ⟨⟨_, rfl, rfl⟩, ⟨_, rfl, rfl⟩, ⟨_, rfl, rfl⟩, ⟨_, rfl, rfl⟩⟩
/-- A SETBIT of position 19 and the position before it, the port not at a reset. -/
theorem witness_StepKeepsUnwrittenBits :
    (∀ rest, (waiting (.command 0x41000000001300000000000000000000)).inp ≠ .reset :: rest) ∧
    decode 0x41000000001300000000000000000000 = .ok (.setbit 19 true) ∧
    replacesBuffer (.setbit 19 true) = false ∧ ¬ writesPosition (.setbit 19 true) (made 20 10 [(0, 0xBD)]) 18 ∧
    ∃ t, step (waiting (.command 0x41000000001300000000000000000000)) = .next t := by
  refine ⟨fun rest h => ?_, by decide, rfl, ?_, ⟨_, rfl⟩⟩
  · cases h
  · show ¬ 18 = (19 : Half).toNat
    decide
theorem witness_EncodeVectorBytes : (made 20 10 [(14, 0xFF)]).flt = false := by decide
/-- Two spellings of one number's digits. -/
theorem witness_PatternDeterminesDigits : IsDigits (digits 4006381333931) ∧ IsDigits [4, 0, 0, 6, 3, 8, 1, 3, 3, 3, 9, 3, 1] ∧
    pattern tables (digits 4006381333931) = pattern tables [4, 0, 0, 6, 3, 8, 1, 3, 3, 3, 9, 3, 1] :=
  ⟨⟨rfl, by decide⟩, ⟨rfl, by decide⟩, rfl⟩

end Sys2Proof.Tests
end

section
/-! What one command word can do to the two status bits: every command's answer in one inversion lemma, and from it that
the sticky fault is set by BOUNDS_FAULT alone (10_state.md R16). -/

namespace Sys2Proof.Machine

/-- `CommandOutcome s u r`: from `s` a command answers `r`, and `u` is the state once its effect is done and before the
response is given. One constructor per outcome of 60_exceptions.md R128; only a successful command's effect is left to
the command, an exceptional outcome's is fixed by R120. -/
inductive CommandOutcome (s : State) : State → Response → Prop
  | faulted (hflt : s.flt = true) : CommandOutcome s s ⟨.faulted, 0, []⟩
  | illegalCommand (hflt : s.flt = false) : CommandOutcome s s ⟨.illegalCommand, 0, []⟩
  | noBuffer (hflt : s.flt = false) (hbv : s.bv = false) : CommandOutcome s s ⟨.noBuffer, 0, []⟩
  | unsupportedSymbology (hflt : s.flt = false) :
      CommandOutcome s s.dropBuffer ⟨.unsupportedSymbology, 0, []⟩
  | checkDigitMismatch (hflt : s.flt = false) (expectedDigit : Half) :
      CommandOutcome s s.dropBuffer ⟨.checkDigitMismatch, expectedDigit, []⟩
  | boundsFault (hflt : s.flt = false) (hbv : s.bv = true) :
      CommandOutcome s s.latchFault ⟨.boundsFault, 0, []⟩
  | ok (hflt : s.flt = false) {u : State} (hu : u.flt = false) (hinp : u.inp = s.inp) (hout : u.out = s.out)
      (val : Half) (data : List Byte) : CommandOutcome s u ⟨.ok, val, data⟩

namespace CommandOutcome

variable {s u : State} {r : Response}

/-- A command's effect leaves the responses already given. -/
theorem out_eq (h : CommandOutcome s u r) : u.out = s.out := by
  cases h with
  | ok _ _ _ hout => exact hout
  | _ => rfl

/-- FLT is 1 after a command exactly if it was before or the command answers BOUNDS_FAULT. -/
theorem flt_iff (h : CommandOutcome s u r) : u.flt = true ↔ s.flt = true ∨ r.st = .boundsFault := by
  cases h with
  | ok hflt hu => simp [hflt, hu]
  | _ hflt => simp [hflt]

/-- While FLT is 1 a command changes nothing and is answered FAULTED. -/
theorem eq_of_flt (h : CommandOutcome s u r) (hs : s.flt = true) : u = s ∧ r = ⟨.faulted, 0, []⟩ := by
  cases h with
  | faulted => exact ⟨rfl, rfl⟩
  | _ hflt => simp [hs] at hflt

end CommandOutcome

/-- Every command completes with one response, in one of the outcomes of R128. -/
theorem exec_outcome (i : Instr) (s : State) :
    ∃ u r, exec i s = .next (u.answer r) ∧ CommandOutcome s u r := by
  cases i with
  | create c =>
    obtain ⟨hf, e⟩ | ⟨hf, e⟩ := execCreate_cases s c
    · exact ⟨_, _, e, .faulted hf⟩
    · exact ⟨_, _, e, .ok hf (by simp [hf]) (by simp) (by simp) _ _⟩
  | append v w =>
    obtain ⟨hf, e⟩ | ⟨hf, hb, e⟩ | ⟨hf, hb, -, e⟩ | ⟨hf, -, -, e⟩ := execAppend_cases s v w
    · exact ⟨_, _, e, .faulted hf⟩
    · exact ⟨_, _, e, .noBuffer hf hb⟩
    · exact ⟨_, _, e, .boundsFault hf hb⟩
    · exact ⟨_, _, e, .ok hf (by simp [hf]) (by simp) (by simp) _ _⟩
  | setbits v a w =>
    obtain ⟨hf, e⟩ | ⟨hf, -, e⟩ | ⟨hf, -, hb, e⟩ | ⟨hf, -, hb, -, e⟩ | ⟨hf, -, -, -, e⟩ := execSetbits_cases s v a w
    · exact ⟨_, _, e, .faulted hf⟩
    · exact ⟨_, _, e, .illegalCommand hf⟩
    · exact ⟨_, _, e, .noBuffer hf hb⟩
    · exact ⟨_, _, e, .boundsFault hf hb⟩
    · exact ⟨_, _, e, .ok hf (by simp [hf]) (by simp) (by simp) _ _⟩
  | setbit a b =>
    obtain ⟨hf, e⟩ | ⟨hf, hb, e⟩ | ⟨hf, hb, -, e⟩ | ⟨hf, -, -, e⟩ := execSetbit_cases s a b
    · exact ⟨_, _, e, .faulted hf⟩
    · exact ⟨_, _, e, .noBuffer hf hb⟩
    · exact ⟨_, _, e, .boundsFault hf hb⟩
    · exact ⟨_, _, e, .ok hf (by simp [hf]) (by simp) (by simp) _ _⟩
  | rawbytes =>
    obtain ⟨hf, e⟩ | ⟨hf, hb, e⟩ | ⟨hf, -, e⟩ := execRawbytes_cases s
    · exact ⟨_, _, e, .faulted hf⟩
    · exact ⟨_, _, e, .noBuffer hf hb⟩
    · exact ⟨_, _, e, .ok hf hf rfl rfl _ _⟩
  | bitcount =>
    obtain ⟨hf, e⟩ | ⟨hf, hb, e⟩ | ⟨hf, -, e⟩ := execBitcount_cases s
    · exact ⟨_, _, e, .faulted hf⟩
    · exact ⟨_, _, e, .noBuffer hf hb⟩
    · exact ⟨_, _, e, .ok hf hf rfl rfl _ _⟩
  | tobitstr =>
    obtain ⟨hf, e⟩ | ⟨hf, hb, e⟩ | ⟨hf, -, e⟩ := execTobitstr_cases s
    · exact ⟨_, _, e, .faulted hf⟩
    · exact ⟨_, _, e, .noBuffer hf hb⟩
    · exact ⟨_, _, e, .ok hf hf rfl rfl _ _⟩
  | encode n p =>
    obtain ⟨hf, e⟩ | ⟨hf, -, -, e⟩ | ⟨hf, -, e⟩ := execEncode_cases s n p
    · exact ⟨_, _, e, .faulted hf⟩
    · exact ⟨_, _, e, .checkDigitMismatch hf _⟩
    · exact ⟨_, _, e, .ok hf (by simp [hf]) (by simp) (by simp) _ _⟩
  | encodeU1 n p =>
    obtain ⟨hf, e⟩ | ⟨hf, e⟩ := execEncodeU1_cases s n p
    · exact ⟨_, _, e, .faulted hf⟩
    · exact ⟨_, _, e, .unsupportedSymbology hf⟩
  | encodeU2 n p =>
    obtain ⟨hf, e⟩ | ⟨hf, e⟩ := execEncodeU2_cases s n p
    · exact ⟨_, _, e, .faulted hf⟩
    · exact ⟨_, _, e, .unsupportedSymbology hf⟩

/-- Every command word, legal or not, completes with one response, in one of the outcomes of R128. -/
theorem runWord_outcome (word : Cmd) (s : State) :
    ∃ u r, runWord word s = .next (u.answer r) ∧ CommandOutcome s u r := by
  cases hd : decode word with
  | ok i => rw [runWord_ok s hd]; exact exec_outcome i s
  | error e =>
    rw [runWord_error s hd]
    obtain ⟨hf, h⟩ | ⟨hf, h⟩ := refuseIllegal_cases s
    · exact ⟨_, _, h, .faulted hf⟩
    · exact ⟨_, _, h, .illegalCommand hf⟩

/-- A completed step waits, resets, or carries out a command word in one of the outcomes of R128. -/
theorem step_next_cases {s t : State} (h : step s = .next t) :
    (s.inp = [] ∧ t = s) ∨
    (∃ rest, s.inp = .reset :: rest ∧ t = (s.takeEvent rest).resetBlock) ∨
    (∃ word rest u r, s.inp = .command word :: rest ∧ t = u.answer r ∧ CommandOutcome (s.takeEvent rest) u r) := by
  obtain ⟨hi, e⟩ | ⟨rest, hi, e⟩ | ⟨word, rest, hi, e⟩ := step_cases s
  · exact .inl ⟨hi, next_inj (h.symm.trans e)⟩
  · exact .inr (.inl ⟨rest, hi, next_inj (h.symm.trans e)⟩)
  · obtain ⟨u, r, hrun, ho⟩ := runWord_outcome word (s.takeEvent rest)
    exact .inr (.inr ⟨word, rest, u, r, hi, next_inj (h.symm.trans (e.trans hrun)), ho⟩)

/-- Only the reset input clears FLT. -/
theorem step_clears_flt {s t : State} (h : step s = .next t) (hs : s.flt = true) (ht : t.flt = false) :
    ∃ rest, s.inp = .reset :: rest := by
  obtain ⟨-, rfl⟩ | ⟨rest, hi, -⟩ | ⟨word, rest, u, r, -, rfl, ho⟩ := step_next_cases h
  · simp [hs] at ht
  · exact ⟨rest, hi⟩
  · have hu : u.flt = true := ho.flt_iff.2 (.inl hs)
    simp [hu] at ht

/-- Only a response BOUNDS_FAULT sets FLT, and it always does. -/
theorem step_sets_flt_iff {s t : State} (h : step s = .next t) (hs : s.flt = false) :
    t.flt = true ↔ ∃ r, t.out = s.out ++ [r] ∧ r.st = .boundsFault := by
  obtain ⟨-, rfl⟩ | ⟨rest, -, rfl⟩ | ⟨word, rest, u, r, -, rfl, ho⟩ := step_next_cases h
  · simp [hs]
  · simp
  · simp [ho.flt_iff, ho.out_eq, hs]

/-- While FLT is 1 a command word is taken, answered FAULTED and changes nothing else. -/
theorem step_command_of_flt {s : State} {word : Cmd} {rest : List HostEvent}
    (hi : s.inp = .command word :: rest) (hs : s.flt = true) :
    step s = .next ((s.takeEvent rest).answer ⟨.faulted, 0, []⟩) := by
  obtain ⟨u, r, hrun, ho⟩ := runWord_outcome word (s.takeEvent rest)
  obtain ⟨rfl, rfl⟩ := ho.eq_of_flt hs
  exact (step_command hi).trans hrun

/-- Settles O17: by the cases of a step (waiting, reset, the outcomes of a command word). -/
theorem faultBitIsSticky : Obligations.FaultBitIsSticky := by
  refine ⟨State.reset_flt, fun s t => step_clears_flt, fun s t => step_sets_flt_iff, ?_, ?_⟩
  · intro s rest hi
    exact ⟨_, step_reset hi, State.resetBlock_flt _⟩
  · intro s t word rest hi hs h
    exact next_inj (h.symm.trans (step_command_of_flt hi hs))

end Sys2Proof.Machine
end

section
/-! Which words are illegal (30_encoding.md R52), and how one is answered (60_exceptions.md R123). -/

namespace Sys2Proof

/-- The five conditions of R52 under which the fields make no command. -/
def Fields.IsIllegal (f : Fields) : Prop :=
  (f.op.toNat = 0 ∨ 9 ≤ f.op.toNat) ∨
  f.rsv ≠ 0 ∨
  (((f.op.toNat = 5 ∨ f.op.toNat = 6 ∨ f.op.toNat = 7) ∧ (f.mod ≠ 0 ∨ f.a ≠ 0 ∨ f.w ≠ 0 ∨ f.v ≠ 0)) ∨
    (f.op.toNat = 1 ∧ (f.mod ≠ 0 ∨ f.w ≠ 0 ∨ f.v ≠ 0)) ∨
    (f.op.toNat = 2 ∧ (f.mod ≠ 0 ∨ f.a ≠ 0)) ∨
    (f.op.toNat = 3 ∧ f.mod ≠ 0) ∨
    (f.op.toNat = 4 ∧ (f.mod.extractLsb' 1 3 ≠ 0 ∨ f.w ≠ 0 ∨ f.v ≠ 0)) ∨
    (f.op.toNat = 8 ∧ (f.mod.getLsbD 3 = true ∨ f.a ≠ 0 ∨ f.w ≠ 0))) ∨
  (f.op.toNat = 3 ∧ 64 < f.w.toNat) ∨
  (f.op.toNat = 8 ∧ f.mod.extractLsb' 0 2 = 3)

/-- A last test of the decoder refuses exactly when it fails. -/
theorem exists_error_ite_ok {p : Prop} [Decidable p] (i : Instr) (e₀ : Illegal) :
    (∃ e, (if p then .ok i else .error e₀) = Except.error e) ↔ ¬ p := by
  split <;> simp [*]

/-- A test of the decoder before others refuses when it holds, and leaves the rest to them. -/
theorem exists_error_ite_error {p : Prop} [Decidable p] (e₀ : Illegal) (x : Except Illegal Instr) :
    (∃ e, (if p then .error e₀ else x) = .error e) ↔ p ∨ ∃ e, x = .error e := by
  split <;> simp [*]

/-- The fields decode to no command exactly under the conditions of R52: one case for each opcode of R49, and the last
for the opcodes that stand for no command. -/
theorem decodeFields_error_iff (f : Fields) : (∃ e, decodeFields f = .error e) ↔ f.IsIllegal := by
  unfold decodeFields
  rw [exists_error_ite_error]
  by_cases hrsv : f.rsv = 0
  case neg => exact iff_of_true (.inl hrsv) (.inr (.inl hrsv))
  case pos =>
    split
    -- SETBITS
    case h_3 hop =>
      rw [exists_error_ite_error, exists_error_ite_ok]
      simp [Fields.IsIllegal, hop, hrsv]
    -- ENCODE, by its two-bit `SYM`
    case h_8 hop =>
      have hlt : (f.mod.extractLsb' 0 2).toNat < 4 := (f.mod.extractLsb' 0 2).isLt
      have hsym : f.mod.extractLsb' 0 2 = 3 ↔ (f.mod.extractLsb' 0 2).toNat = 3 := BitVec.toNat_inj.symm
      simp only [Fields.IsIllegal, hop, hrsv, hsym, exists_error_ite_error]
      split
      case h_4 =>
        have h3 : (f.mod.extractLsb' 0 2).toNat = 3 := by grind
        simp [h3]
      all_goals
        rename_i hs
        simp [hs]
    -- no command's opcode
    case h_9 =>
      have hop : f.op.toNat = 0 ∨ 9 ≤ f.op.toNat := by grind
      exact iff_of_true (.inr ⟨_, rfl⟩) (.inl hop)
    -- the commands whose one test is on their unused fields
    all_goals
      rename_i hop
      simp only [exists_error_ite_ok, not_and_or]
      simp [Fields.IsIllegal, hop, hrsv]

end Sys2Proof

namespace Sys2Proof.Machine

/-- While FLT is 0 an illegal word is taken, answered ILLEGAL_COMMAND and changes nothing else. -/
theorem step_illegal {s : State} {word : Cmd} {rest : List HostEvent} {e : Illegal}
    (hi : s.inp = .command word :: rest) (hs : s.flt = false) (hd : decode word = .error e) :
    step s = .next ((s.takeEvent rest).answer ⟨.illegalCommand, 0, []⟩) := by
  rw [step_command hi, runWord_error _ hd]
  exact unlessFaulted_of_ok hs

/-- Settles O7: the decoder's branches against R52, and the answer of an illegal word. -/
theorem illegalWordsAreRefused : Obligations.IllegalWordsAreRefused :=
  ⟨rfl, fun word => ⟨decodeFields_error_iff (fieldsOf word), fun _ _ _ hi hs hd => step_illegal hi hs hd⟩⟩

end Sys2Proof.Machine
end

section
/-! The byte transport of words and response scalars (30_encoding.md R46). -/

namespace Sys2Proof

/-- One byte more of a word, received behind the bytes before it. -/
theorem shiftRight_or_next_byte (c : Cmd) {n : Nat} (hn : n < 16) :
    c >>> (128 - 8 * n) <<< 8 ||| (c.extractLsb' (120 - 8 * n) 8).setWidth 128 = c >>> (128 - 8 * (n + 1)) := by
  apply BitVec.eq_of_getLsbD_eq
  intro i hi
  simp only [BitVec.getLsbD_or, BitVec.getLsbD_shiftLeft, BitVec.getLsbD_ushiftRight, BitVec.getLsbD_setWidth,
    BitVec.getLsbD_extractLsb', hi, decide_true, Bool.true_and]
  by_cases h8 : i < 8
  · simp only [h8, decide_true, Bool.not_true, Bool.false_and, Bool.false_or, Bool.true_and]
    exact congrArg _ (by omega)
  · simp only [h8, decide_false, Bool.not_false, Bool.true_and, Bool.false_and, Bool.or_false]
    exact congrArg _ (by omega)

/-- The first `n` bytes of a word carry its `8 n` most significant bits. -/
theorem foldl_range_bytes (c : Cmd) {n : Nat} (hn : n ≤ 16) :
    ((List.range n).map (fun i => c.extractLsb' (120 - 8 * i) 8)).foldl
      (fun (acc : Cmd) b => acc <<< 8 ||| b.setWidth 128) 0 = c >>> (128 - 8 * n) := by
  induction n with
  | zero => exact (BitVec.ushiftRight_eq_zero le_rfl).symm
  | succ n ih =>
    rw [List.range_succ, List.map_append, List.foldl_append, ih (by omega)]
    exact shiftRight_or_next_byte c (by omega)

@[simp] theorem length_commandBytes (c : Cmd) : (commandBytes c).length = 16 := by simp [commandBytes]

/-- Bit `j` of byte `i` is bit `120 - 8 i + j` of the word. -/
theorem getLsbD_getD_commandBytes (c : Cmd) {i j : Nat} (hi : i < 16) (hj : j < 8) :
    ((commandBytes c).getD i 0).getLsbD j = c.getLsbD (120 - 8 * i + j) := by
  simp [commandBytes, hi, hj]

/-- The receiver's word is the sender's. -/
theorem commandOfBytes_commandBytes (c : Cmd) : commandOfBytes (commandBytes c) = some c := by
  rw [commandOfBytes, if_pos (length_commandBytes c)]
  exact congrArg some ((foldl_range_bytes c le_rfl).trans (BitVec.ushiftRight_zero c))

end Sys2Proof

namespace Sys2Proof.Machine

/-- A 16-bit number is 256 times its high byte and its low byte. -/
theorem toNat_eq_high_low (x : Half) :
    x.toNat = 256 * (x.extractLsb' 8 8).toNat + (x.extractLsb' 0 8).toNat := by
  have hx := x.isLt
  simp only [BitVec.extractLsb'_toNat, Nat.shiftRight_eq_div_pow]
  omega

/-- Settles O8: the bytes one by one, and the word recovered by induction on the bytes received. -/
theorem bytesCarryMostSignificantFirst : Obligations.BytesCarryMostSignificantFirst :=
  ⟨fun word => ⟨length_commandBytes word, fun _ _ hi hj => getLsbD_getD_commandBytes word hi hj,
    commandOfBytes_commandBytes word⟩,
   fun x => ⟨_, _, rfl, toNat_eq_high_low x⟩⟩

end Sys2Proof.Machine
end

section
/-! The one response of a command: what its status, VAL and DATA can be (30_encoding.md R50, R51). -/

namespace Sys2Proof.Machine

/-- `Answers P s x`: the result `x` completes a command begun in `s`, with one response, and that meets `P`. -/
def Answers (P : Response → Prop) (s : State) (x : Result) : Prop :=
  ∃ t r, x = .next t ∧ t.inp = s.inp ∧ t.out = s.out ++ [r] ∧ P r

namespace Answers

variable {P Q : Response → Prop} {s u : State} {x y : Result} {st : Status} {val : Half} {data : List Byte}

theorem imp (h : Answers P s x) (hPQ : ∀ r, P r → Q r) : Answers Q s x := by
  obtain ⟨t, r, hx, hinp, hout, hr⟩ := h
  exact ⟨t, r, hx, hinp, hout, hPQ r hr⟩

/-- A response is given once the command's effect `u` is done, which leaves the host's lists alone. -/
theorem respond (h : P ⟨st, val, data⟩) (hinp : u.inp = s.inp := by simp) (hout : u.out = s.out := by simp) :
    Answers P s (respond st val data u) :=
  ⟨_, _, respond_eq .., hinp, by simp [hout], h⟩

theorem raise (h : P ⟨st, val, []⟩) : Answers P s (raise st val s) :=
  respond h (by cases st <;> simp) (by cases st <;> simp)

theorem unlessFaulted (hf : P ⟨.faulted, 0, []⟩) (hx : Answers P s x) : Answers P s (unlessFaulted s x) := by
  obtain ⟨-, e⟩ | ⟨-, e⟩ := unlessFaulted_cases s x
  · rw [e]; exact raise hf
  · rw [e]; exact hx

theorem withBuffer (hn : P ⟨.noBuffer, 0, []⟩) (hx : Answers P s x) : Answers P s (withBuffer s x) := by
  obtain ⟨-, e⟩ | ⟨-, e⟩ := withBuffer_cases s x
  · rw [e]; exact raise hn
  · rw [e]; exact hx

theorem ite {p : Prop} [Decidable p] (hx : p → Answers P s x) (hy : ¬ p → Answers P s y) :
    Answers P s (if p then x else y) := by
  split
  next h => exact hx h
  next h => exact hy h

end Answers

/-- `CommandResponse s i r`: from `s` the command `i` may answer `r`. One constructor for the outcomes that carry
nothing, one for the mismatch (60_exceptions.md R121), and one for each command's success by its own rule. -/
inductive CommandResponse (s : State) : Instr → Response → Prop
  | exceptional {i : Instr} {st : Status} (hok : st ≠ .ok) (hmis : st ≠ .checkDigitMismatch) :
      CommandResponse s i ⟨st, 0, []⟩
  | mismatch (number : VWord) : CommandResponse s (.encode number .validate)
      ⟨.checkDigitMismatch, BitVec.ofNat 16 (expected (digits number.toNat)), []⟩
  | create (c : Half) : CommandResponse s (.create c) ⟨.ok, 0, []⟩
  | append (v : VWord) (w : Half) : CommandResponse s (.append v w) ⟨.ok, 0, []⟩
  | setbits (v : VWord) (a w : Half) : CommandResponse s (.setbits v a w) ⟨.ok, 0, []⟩
  | setbit (a : Half) (b : Bool) : CommandResponse s (.setbit a b) ⟨.ok, 0, []⟩
  | rawbytes : CommandResponse s .rawbytes ⟨.ok, BitVec.ofNat 16 s.nb, s.buf.readBytes s.nb⟩
  | bitcount : CommandResponse s .bitcount ⟨.ok, s.cur, []⟩
  | tobitstr : CommandResponse s .tobitstr ⟨.ok, s.cur, bitString s.buf s.cur.toNat⟩
  | encode (number : VWord) (policy : Policy) : CommandResponse s (.encode number policy)
      ⟨.ok, BitVec.ofNat 16 Config.patBits, displayBytes (digits number.toNat)⟩

section
variable {s : State} {i : Instr} {x y : Result}

theorem answers_exceptional {st : Status} (hok : st ≠ .ok) (hmis : st ≠ .checkDigitMismatch) :
    Answers (CommandResponse s i) s (raise st 0 s) :=
  .raise (.exceptional hok hmis)

theorem answers_unlessFaulted (h : Answers (CommandResponse s i) s x) :
    Answers (CommandResponse s i) s (unlessFaulted s x) :=
  .unlessFaulted (.exceptional nofun nofun) h

/-- The tests of a buffer command: FLT, then BV. -/
theorem answers_bufferCommand (h : Answers (CommandResponse s i) s x) :
    Answers (CommandResponse s i) s (unlessFaulted s (withBuffer s x)) :=
  answers_unlessFaulted (.withBuffer (.exceptional nofun nofun) h)

/-- The bounds check of a writing command. -/
theorem answers_rangeFits {start n : Nat} (h : Answers (CommandResponse s i) s x) :
    Answers (CommandResponse s i) s (if rangeFits s start n = true then x else raise .boundsFault 0 s) :=
  .ite (fun _ => h) (fun _ => answers_exceptional nofun nofun)

end

/-- Every command answers one response, of those it may give. -/
theorem exec_answers (i : Instr) (s : State) : Answers (CommandResponse s i) s (exec i s) := by
  cases i with
  | create c => exact answers_unlessFaulted (.respond (.create c))
  | append v w => exact answers_bufferCommand (answers_rangeFits (.respond (.append v w)))
  | setbits v a w =>
    exact answers_unlessFaulted (.ite
      (fun _ => .withBuffer (.exceptional nofun nofun) (answers_rangeFits (.respond (.setbits v a w))))
      (fun _ => answers_exceptional nofun nofun))
  | setbit a b => exact answers_bufferCommand (answers_rangeFits (.respond (.setbit a b)))
  | rawbytes => exact answers_bufferCommand (.respond .rawbytes)
  | bitcount => exact answers_bufferCommand (.respond .bitcount)
  | tobitstr => exact answers_bufferCommand (.respond .tobitstr)
  | encode n p =>
    refine answers_unlessFaulted (.ite (fun h => ?_) (fun _ => .respond (.encode n p)))
    obtain ⟨rfl, -⟩ := h
    exact .raise (.mismatch n)
  | encodeU1 n p => exact answers_unlessFaulted (answers_exceptional nofun nofun)
  | encodeU2 n p => exact answers_unlessFaulted (answers_exceptional nofun nofun)

theorem length_digitsLoop (k t : Nat) (found : Digits) : (digitsLoop k t found).length = k + found.length := by
  induction k generalizing t found with
  | zero => simp [digitsLoop]
  | succ k ih => simp [digitsLoop, ih]; omega

@[simp] theorem length_digits (n : Nat) : (digits n).length = 13 := length_digitsLoop 13 n []

theorem length_displayBytes_le (d : Digits) : (displayBytes d).length ≤ d.length := by
  unfold displayBytes display
  split <;> simp

/-- What R50 says of every response: DATA fits LEN, and a status other than OK carries nothing but a mismatch's VAL. -/
structure Response.WellFormed (r : Response) : Prop where
  length_le : r.data.length ≤ 65535
  exceptional : r.st ≠ .ok → r.data = [] ∧ (r.st ≠ .checkDigitMismatch → r.val = 0)

/-- LEN does not wrap around. -/
theorem Response.WellFormed.toNat_len {r : Response} (h : r.WellFormed) : r.len.toNat = r.data.length :=
  Nat.mod_eq_of_lt (Nat.lt_succ_of_le h.length_le)

theorem wellFormed_of_empty {st : Status} : Response.WellFormed ⟨st, 0, []⟩ :=
  ⟨Nat.zero_le _, fun _ => ⟨rfl, fun _ => rfl⟩⟩

theorem wellFormed_ok {val : Half} {data : List Byte} (h : data.length ≤ 65535) :
    Response.WellFormed ⟨.ok, val, data⟩ :=
  ⟨h, fun hok => absurd rfl hok⟩

theorem State.nb_le (s : State) : s.nb ≤ 8192 := by
  have hcap := s.cap.isLt
  simp only [State.nb, nbOf]
  omega

namespace CommandResponse

variable {s : State} {i : Instr} {r : Response}

theorem wellFormed (h : CommandResponse s i r) : r.WellFormed := by
  cases h with
  | exceptional => exact wellFormed_of_empty
  | mismatch n => exact ⟨Nat.zero_le _, fun _ => ⟨rfl, fun hm => absurd rfl hm⟩⟩
  | create | append | setbits | setbit => exact wellFormed_of_empty
  | bitcount => exact wellFormed_ok (Nat.zero_le _)
  | rawbytes =>
    have hnb := s.nb_le
    exact wellFormed_ok (by simp; omega)
  | tobitstr =>
    have hcur := s.cur.isLt
    exact wellFormed_ok (by simp; omega)
  | encode n p =>
    have hlen := length_displayBytes_le (digits n.toNat)
    rw [length_digits] at hlen
    exact wellFormed_ok (by omega)

/-- The commands that only write have neither VAL nor DATA. -/
theorem empty_of_write (h : CommandResponse s i r) (hi : i.mnemonic ∈ ["CREATE", "APPEND", "SETBITS", "SETBIT"]) :
    r.val = 0 ∧ r.data = [] := by
  cases h with
  | exceptional | create | append | setbits | setbit => exact ⟨rfl, rfl⟩
  | _ => simp [Instr.mnemonic] at hi

theorem data_of_bitcount (h : CommandResponse s i r) (hi : i.mnemonic = "BITCOUNT") : r.data = [] := by
  cases h with
  | rawbytes | tobitstr | encode => simp [Instr.mnemonic] at hi
  | _ => rfl

theorem val_of_mismatch {number : VWord} {policy : Policy}
    (h : CommandResponse s (.encode number policy) r) (hr : r.st = .checkDigitMismatch) :
    r.val = BitVec.ofNat 16 (expected (digits number.toNat)) := by
  cases h with
  | mismatch => rfl
  | exceptional _ hmis => exact absurd hr hmis
  | encode => cases hr

end CommandResponse

/-- An illegal word's response carries nothing. -/
theorem refuseIllegal_answers (s : State) : Answers Response.WellFormed s (refuseIllegal s) :=
  .unlessFaulted wellFormed_of_empty (.raise wellFormed_of_empty)

/-- Every command word is answered by one response, well-formed and of those its command may give. -/
theorem runWord_answers (word : Cmd) (s : State) :
    Answers (fun r => r.WellFormed ∧ ∀ i, decode word = .ok i → CommandResponse s i r) s (runWord word s) := by
  cases hd : decode word with
  | ok i =>
    rw [runWord_ok s hd]
    exact (exec_answers i s).imp fun r h => ⟨h.wellFormed, fun j hj => by cases hj; exact h⟩
  | error e =>
    rw [runWord_error s hd]
    exact (refuseIllegal_answers s).imp fun r h => ⟨h, nofun⟩

theorem Status.code_le (st : Status) : st.code.toNat ≤ 6 := by
  cases st <;> decide

/-- Settles O15: every command is a nest of the tests of R128 around one response, so its responses are listed by
`CommandResponse`, and each has what R50 asks. -/
theorem oneResponsePerCommand : Obligations.OneResponsePerCommand := by
  refine ⟨⟨rfl, rfl, rfl, rfl, rfl, rfl, rfl, Status.code_le⟩, fun s word rest hi => ?_⟩
  obtain ⟨t, r, hrun, hinp, hout, hwf, hresp⟩ := runWord_answers word (s.takeEvent rest)
  refine ⟨t, r, (step_command hi).trans hrun, hinp, hout, hwf.length_le, hwf.toNat_len, hwf.exceptional,
    fun i hd => ?_⟩
  have h := hresp i hd
  refine ⟨h.empty_of_write, h.data_of_bitcount, ?_⟩
  rintro number policy rfl
  exact h.val_of_mismatch

end Sys2Proof.Machine
end

section
/-! The weighted sum of the thirteen digits and its bound (41_symbol_encoder.md R82). -/

namespace Sys2Proof.Machine

open Sys2Proof.Config

/-- Positions past the end read 0, so the bound needs no index condition. -/
theorem IsDigits.digit_le {d : Digits} (hd : IsDigits d) (i : Nat) : digit d i ≤ 9 := by
  obtain ⟨-, hlt⟩ := hd
  rw [digit, List.getD_eq_getElem?_getD]
  cases hi : d[i]? with
  | none => exact Nat.zero_le 9
  | some x => exact Nat.le_of_lt_succ (hlt x (List.mem_of_getElem? hi))

/-- R82's sum written out over the thirteen positions. -/
theorem weightedSum_eq (d : Digits) :
    weightedSum d = digit d 0 + 3 * digit d 1 + digit d 2 + 3 * digit d 3 + digit d 4 + 3 * digit d 5 + digit d 6 +
      3 * digit d 7 + digit d 8 + 3 * digit d 9 + digit d 10 + 3 * digit d 11 + digit d 12 := by
  simp [weightedSum, ndig, List.range_succ, Nat.mul_comm, Nat.add_assoc]

/-- `9·(7 + 18) = 225`: seven digits of weight 1 and six of weight 3. -/
theorem IsDigits.weightedSum_le {d : Digits} (hd : IsDigits d) : weightedSum d ≤ 225 := by
  have hterm : ∀ i ∈ List.range ndig,
      digit d i * (if i % 2 = 1 then 3 else 1) ≤ 9 * (if i % 2 = 1 then 3 else 1) :=
    fun i _ => Nat.mul_le_mul_right _ (hd.digit_le i)
  calc weightedSum d
      ≤ ((List.range ndig).map fun i => 9 * (if i % 2 = 1 then 3 else 1)).sum := List.sum_le_sum hterm
    _ = 225 := by decide

theorem checksum_le (d : Digits) : checksum d ≤ 9 :=
  Nat.le_of_lt_succ (Nat.mod_lt _ (by decide))

/-- Settles O39: the sum is written out position by position, and each term is at most nine times its weight. -/
theorem checksumWeights : Obligations.ChecksumWeights := by
  intro d hd
  refine ⟨?_, hd.weightedSum_le, rfl, checksum_le d⟩
  rintro d0 d1 d2 d3 d4 d5 d6 d7 d8 d9 d10 d11 d12 rfl
  exact weightedSum_eq _

end Sys2Proof.Machine
end

section
/-! The status of a command word as the first item of the priority list that applies (60_exceptions.md R128), and from it
the outcomes NO_BUFFER (R124), BOUNDS_FAULT (R125) and FAULTED (R126). -/

namespace Sys2Proof

theorem width_le_of_decodeFields {f : Fields} {v : VWord} {a w : Half}
    (h : decodeFields f = .ok (.setbits v a w)) : w.toNat ≤ 64 := by
  unfold decodeFields at h
  split at h
  · cases h
  · split at h
    -- SETBITS: the width test is the decoder's own (R52 item 4)
    case h_3 =>
      split at h
      · cases h
      · split at h
        next h64 => cases h; exact h64
        next => cases h
    -- ENCODE, by its `SYM`
    case h_8 =>
      split at h
      · cases h
      · split at h <;> cases h
    case h_9 => cases h
    -- the commands whose one test is on their unused fields
    all_goals split at h <;> cases h

/-- A legal word stands for a well-formed command. -/
theorem wf_of_decode {word : Cmd} {i : Instr} (h : decode word = .ok i) : i.wf = true := by
  cases i with
  | setbits v a w => exact decide_eq_true (width_le_of_decodeFields h)
  | _ => rfl

end Sys2Proof

namespace Sys2Proof.Machine

/-! ### The items of the priority list -/

section

variable {i : Instr} {s : State}

theorem needsBuffer_iff (i : Instr) : needsBuffer i = true ↔
    i.mnemonic ∈ ["APPEND", "SETBITS", "SETBIT", "RAWBYTES", "BITCOUNT", "TOBITSTR"] := by
  cases i <;> simp [needsBuffer, Instr.mnemonic]

/-- Only buffer commands have a bounds check. -/
theorem needsBuffer_of_exceedsCapacity (h : exceedsCapacity i s = true) : needsBuffer i = true := by
  cases i with
  | append | setbits | setbit => rfl
  | _ => cases h

theorem commandStatus_eq_noBuffer_iff :
    commandStatus i s = .noBuffer ↔ needsBuffer i = true ∧ s.bv = false := by
  unfold commandStatus
  split
  next h => exact iff_of_true rfl h
  next h =>
    refine iff_of_false ?_ h
    repeat' split
    all_goals nofun

theorem commandStatus_eq_boundsFault_iff :
    commandStatus i s = .boundsFault ↔ s.bv = true ∧ exceedsCapacity i s = true := by
  unfold commandStatus
  split
  next h =>
    obtain ⟨-, hb⟩ := h
    exact iff_of_false nofun (by simp [hb])
  next hn =>
    split
    next he =>
      have hb : s.bv = true := by simpa [needsBuffer_of_exceedsCapacity he] using hn
      exact iff_of_true rfl ⟨hb, he⟩
    next he =>
      refine iff_of_false ?_ (fun h => he h.2)
      repeat' split
      all_goals nofun

/-- A buffer command with a buffer and within its capacity succeeds. -/
theorem commandStatus_eq_ok (hn : needsBuffer i = true) (hb : s.bv = true) (he : exceedsCapacity i s = false) :
    commandStatus i s = .ok := by
  unfold commandStatus
  rw [if_neg (by simp [hb]), if_neg (by simp [he])]
  cases i with
  | append | setbits | setbit | rawbytes | bitcount | tobitstr => rfl
  | _ => cases hn

/-- ENCODE of the implemented symbology has neither of the two tests. -/
theorem commandStatus_encode (n : VWord) (p : Policy) : commandStatus (.encode n p) s =
    if p = .validate ∧ checksum (digits n.toNat) ≠ 0 then .checkDigitMismatch else .ok := by
  simp [commandStatus, needsBuffer, exceedsCapacity]

/-- The status `exec` answers, for any command: R128 with item 2 for the one operand that no legal word carries. -/
def execStatus (i : Instr) (s : State) : Status :=
  if s.flt = true then .faulted
  else if i.wf = true then commandStatus i s
  else .illegalCommand

theorem execStatus_of_flt (hf : s.flt = true) : execStatus i s = .faulted := if_pos hf

theorem execStatus_of_wf (hf : s.flt = false) (hwf : i.wf = true) : execStatus i s = commandStatus i s := by
  simp [execStatus, hf, hwf]

theorem execStatus_of_not_wf (hf : s.flt = false) (hwf : i.wf = false) : execStatus i s = .illegalCommand := by
  simp [execStatus, hf, hwf]

theorem execStatus_noBuffer (hf : s.flt = false) (hwf : i.wf = true) (hn : needsBuffer i = true) (hb : s.bv = false) :
    execStatus i s = .noBuffer :=
  (execStatus_of_wf hf hwf).trans (commandStatus_eq_noBuffer_iff.2 ⟨hn, hb⟩)

theorem execStatus_boundsFault (hf : s.flt = false) (hwf : i.wf = true) (hb : s.bv = true)
    (he : exceedsCapacity i s = true) : execStatus i s = .boundsFault :=
  (execStatus_of_wf hf hwf).trans (commandStatus_eq_boundsFault_iff.2 ⟨hb, he⟩)

theorem execStatus_ok (hf : s.flt = false) (hwf : i.wf = true) (hn : needsBuffer i = true) (hb : s.bv = true)
    (he : exceedsCapacity i s = false) : execStatus i s = .ok :=
  (execStatus_of_wf hf hwf).trans (commandStatus_eq_ok hn hb he)

/-- A status of items 3 to 7 is answered exactly when items 1 and 2 do not apply and the command gets it. -/
theorem execStatus_eq_iff {st : Status} (hfaulted : st ≠ .faulted) (hillegal : st ≠ .illegalCommand) :
    execStatus i s = st ↔ i.wf = true ∧ s.flt = false ∧ commandStatus i s = st := by
  cases hf : s.flt with
  | true => simp [execStatus_of_flt hf, hfaulted.symm]
  | false =>
    cases hwf : i.wf with
    | true => simp [execStatus_of_wf hf hwf]
    | false => simp [execStatus_of_not_wf hf hwf, hillegal.symm]

end

/-! ### What a command answers -/

section

variable {i : Instr} {s : State} {x : Result}

/-- Item 1: the test of FLT. -/
theorem status_unlessFaulted (h : s.flt = false → Answers (fun r => execStatus i s = r.st) s x) :
    Answers (fun r => execStatus i s = r.st) s (unlessFaulted s x) := by
  obtain ⟨hf, e⟩ | ⟨hf, e⟩ := unlessFaulted_cases s x
  · rw [e]; exact .raise (execStatus_of_flt hf)
  · rw [e]; exact h hf

/-- Item 3: the test of BV, of a buffer command past items 1 and 2. -/
theorem status_withBuffer (hf : s.flt = false) (hwf : i.wf = true) (hn : needsBuffer i = true)
    (h : s.bv = true → Answers (fun r => execStatus i s = r.st) s x) :
    Answers (fun r => execStatus i s = r.st) s (withBuffer s x) := by
  obtain ⟨hb, e⟩ | ⟨hb, e⟩ := withBuffer_cases s x
  · rw [e]; exact .raise (execStatus_noBuffer hf hwf hn hb)
  · rw [e]; exact h hb

/-- Item 4: the bounds check, of a command past items 1 to 3; within the capacity the command succeeds. -/
theorem status_rangeFits (hf : s.flt = false) (hwf : i.wf = true) (hb : s.bv = true) {start n : Nat}
    (he : exceedsCapacity i s = decide (s.cap.toNat < start + n)) (hn : needsBuffer i = true)
    (hx : Answers (fun r => r.st = .ok) s x) :
    Answers (fun r => execStatus i s = r.st) s
      (if rangeFits s start n = true then x else raise .boundsFault 0 s) := by
  refine .ite (fun hr => ?_) (fun hr => ?_) <;> rw [rangeFits_iff] at hr
  · have hok : execStatus i s = .ok := execStatus_ok hf hwf hn hb (he.trans (decide_eq_false (by omega)))
    exact hx.imp fun r h => hok.trans h.symm
  · exact .raise (execStatus_boundsFault hf hwf hb (he.trans (decide_eq_true (by omega))))

/-- A read-out is past the list once there is a buffer. -/
theorem status_read (hwf : i.wf = true) (hn : needsBuffer i = true) (he : exceedsCapacity i s = false)
    (hx : Answers (fun r => r.st = .ok) s x) :
    Answers (fun r => execStatus i s = r.st) s (unlessFaulted s (withBuffer s x)) :=
  status_unlessFaulted fun hf => status_withBuffer hf hwf hn fun hb =>
    hx.imp fun _ h => (execStatus_ok hf hwf hn hb he).trans h.symm

end

/-- Every command answers the status of the priority list. -/
theorem exec_status (i : Instr) (s : State) : Answers (fun r => execStatus i s = r.st) s (exec i s) := by
  cases i with
  | create c => exact status_unlessFaulted fun hf => .respond (execStatus_of_wf hf rfl)
  | append v w =>
    exact status_unlessFaulted fun hf => status_withBuffer hf rfl rfl fun hb =>
      status_rangeFits hf rfl hb rfl rfl (.respond rfl)
  | setbits v a w =>
    exact status_unlessFaulted fun hf => .ite
      (fun h64 =>
        have hwf : (Instr.setbits v a w).wf = true := decide_eq_true h64
        status_withBuffer hf hwf rfl fun hb => status_rangeFits hf hwf hb rfl rfl (.respond rfl))
      (fun h64 => .raise (execStatus_of_not_wf hf (decide_eq_false h64)))
  | setbit a b =>
    exact status_unlessFaulted fun hf => status_withBuffer hf rfl rfl fun hb =>
      status_rangeFits hf rfl hb rfl rfl (.respond rfl)
  | rawbytes => exact status_read rfl rfl rfl (.respond rfl)
  | bitcount => exact status_read rfl rfl rfl (.respond rfl)
  | tobitstr => exact status_read rfl rfl rfl (.respond rfl)
  | encode n p =>
    refine status_unlessFaulted fun hf => ?_
    have hst := (execStatus_of_wf (s := s) hf rfl).trans (commandStatus_encode n p)
    exact .ite (fun h => .raise (hst.trans (if_pos h))) (fun h => .respond (hst.trans (if_neg h)))
  | encodeU1 n p => exact status_unlessFaulted fun hf => .raise (execStatus_of_wf hf rfl)
  | encodeU2 n p => exact status_unlessFaulted fun hf => .raise (execStatus_of_wf hf rfl)

section

variable {i : Instr} {s t u : State} {r : Response}

/-- The response a completed command ends with carries the status of the priority list. -/
theorem st_eq_execStatus (h : exec i s = .next t) (hr : t.out = s.out ++ [r]) : r.st = execStatus i s := by
  obtain ⟨t', r', e, -, hr', hst⟩ := exec_status i s
  obtain rfl := next_inj (e.symm.trans h)
  obtain ⟨-, rfl⟩ := List.append_singleton_inj.1 (hr'.symm.trans hr)
  exact hst.symm

/-- `exec_outcome` with its status fixed. -/
theorem exec_outcome_status (i : Instr) (s : State) :
    ∃ u r, exec i s = .next (u.answer r) ∧ CommandOutcome s u r ∧ r.st = execStatus i s := by
  obtain ⟨u, r, e, ho⟩ := exec_outcome i s
  exact ⟨u, r, e, ho, st_eq_execStatus e (congrArg (· ++ [r]) ho.out_eq)⟩

theorem CommandOutcome.eq_of_noBuffer (h : CommandOutcome s u r) (hr : r.st = .noBuffer) :
    u = s ∧ r = ⟨.noBuffer, 0, []⟩ := by
  cases h with
  | noBuffer => exact ⟨rfl, rfl⟩
  | _ => cases hr

theorem CommandOutcome.eq_of_boundsFault (h : CommandOutcome s u r) (hr : r.st = .boundsFault) :
    u = s.latchFault ∧ r = ⟨.boundsFault, 0, []⟩ := by
  cases h with
  | boundsFault => exact ⟨rfl, rfl⟩
  | _ => cases hr

/-- A buffer command without a buffer is refused and changes nothing. -/
theorem exec_of_noBuffer (hwf : i.wf = true) (hf : s.flt = false) (hb : s.bv = false) (hn : needsBuffer i = true) :
    exec i s = .next (s.answer ⟨.noBuffer, 0, []⟩) := by
  obtain ⟨u, r, e, ho, hst⟩ := exec_outcome_status i s
  obtain ⟨rfl, rfl⟩ := ho.eq_of_noBuffer (hst.trans (execStatus_noBuffer hf hwf hn hb))
  exact e

/-- A command past the capacity sets FLT and changes nothing else. -/
theorem exec_of_exceedsCapacity (hwf : i.wf = true) (hf : s.flt = false) (hb : s.bv = true)
    (he : exceedsCapacity i s = true) : exec i s = .next (s.latchFault.answer ⟨.boundsFault, 0, []⟩) := by
  obtain ⟨u, r, e, ho, hst⟩ := exec_outcome_status i s
  obtain ⟨rfl, rfl⟩ := ho.eq_of_boundsFault (hst.trans (execStatus_boundsFault hf hwf hb he))
  exact e

end

/-! ### What a command word answers -/

theorem wordStatus_of_error {word : Cmd} {s : State} {e : Illegal} (hd : decode word = .error e) :
    wordStatus word s = if s.flt = true then .faulted else .illegalCommand := by
  simp [wordStatus, hd]

theorem wordStatus_of_ok {word : Cmd} {s : State} {i : Instr} (hd : decode word = .ok i) :
    wordStatus word s = execStatus i s := by
  simp [wordStatus, execStatus, hd, wf_of_decode hd]

/-- The command port has no part in the status. -/
theorem wordStatus_takeEvent (word : Cmd) (s : State) (rest : List HostEvent) :
    wordStatus word (s.takeEvent rest) = wordStatus word s := by
  cases hd : decode word with
  | ok i => rw [wordStatus_of_ok hd, wordStatus_of_ok hd]; rfl
  | error e => rw [wordStatus_of_error hd, wordStatus_of_error hd]; rfl

/-- Every command word, legal or not, answers the status of the priority list. -/
theorem runWord_status (word : Cmd) (s : State) :
    Answers (fun r => wordStatus word s = r.st) s (runWord word s) := by
  cases hd : decode word with
  | ok i =>
    rw [runWord_ok s hd, wordStatus_of_ok hd]
    exact exec_status i s
  | error e =>
    rw [runWord_error s hd, wordStatus_of_error hd]
    obtain ⟨hf, h⟩ | ⟨hf, h⟩ := refuseIllegal_cases s
    · exact ⟨_, _, h, rfl, rfl, if_pos hf⟩
    · exact ⟨_, _, h, rfl, rfl, if_neg (by simp [hf])⟩

/-! ### The obligations -/

/-- Settles O9: FLT is the first test of every command word. -/
theorem faultedRefusesEveryWord : Obligations.FaultedRefusesEveryWord :=
  ⟨rfl, fun _ _ _ hi hs => step_command_of_flt hi hs⟩

/-- Settles O10: NO_BUFFER is the status exactly when items 1 and 2 do not apply and item 3 does. -/
theorem noBufferRefusal : Obligations.NoBufferRefusal := by
  refine ⟨rfl, fun i s hwf hf hb hi => exec_of_noBuffer hwf hf hb ((needsBuffer_iff i).2 hi), ?_⟩
  intro i s t r h hr hst
  obtain ⟨hwf, hf, hc⟩ :=
    (execStatus_eq_iff (st := .noBuffer) nofun nofun).1 ((st_eq_execStatus h hr).symm.trans hst)
  obtain ⟨hn, hb⟩ := commandStatus_eq_noBuffer_iff.1 hc
  exact ⟨hwf, hf, hb, (needsBuffer_iff i).1 hn⟩

/-- Settles O11: BOUNDS_FAULT is the status exactly when items 1 to 3 do not apply and item 4 does. -/
theorem boundsFaultLatches : Obligations.BoundsFaultLatches := by
  refine ⟨rfl, ?_, ?_, ?_, ?_⟩
  · intro v w s hf hb hr
    exact exec_of_exceedsCapacity rfl hf hb (decide_eq_true hr)
  · intro v a w s hf hb h64 hr
    exact exec_of_exceedsCapacity (decide_eq_true h64) hf hb (decide_eq_true hr)
  · intro a b s hf hb hr
    exact exec_of_exceedsCapacity rfl hf hb (decide_eq_true (Nat.lt_succ_of_le hr))
  · intro i s t r h hr hst
    obtain ⟨hwf, hf, hc⟩ :=
      (execStatus_eq_iff (st := .boundsFault) nofun nofun).1 ((st_eq_execStatus h hr).symm.trans hst)
    exact ⟨hwf, hf, commandStatus_eq_boundsFault_iff.1 hc⟩

/-- Settles O14: a word that decodes gets its command's status, one that does not gets item 1 or 2. -/
theorem statusByPriority : Obligations.StatusByPriority := by
  intro s word rest hi
  obtain ⟨t, r, hrun, -, hout, hst⟩ := runWord_status word (s.takeEvent rest)
  exact ⟨t, r, (step_command hi).trans hrun, hout, hst.symm.trans (wordStatus_takeEvent word s rest)⟩

end Sys2Proof.Machine
end

section
/-! The decoder and the encoder are inverse to each other, and the opcode map selects the command (30_encoding.md R49,
R52, R55). -/

namespace Sys2Proof

open Sys2Proof.Laws.F (fieldsOf_encode)

/-! ### Decode of encode -/

/-- The fields of a well-formed command decode to it. -/
theorem decodeFields_instrFields {i : Instr} (h : i.wf = true) : decodeFields (instrFields i) = .ok i := by
  cases i with
  | setbits v a w =>
    have h64 : w.toNat ≤ 64 := by simpa [Instr.wf] using h
    simp [decodeFields, instrFields, h64]
  -- `MOD` by the values of the one bit it carries
  -- `MOD` by the values of the one bit it carries
  | setbit a b => cases b <;> simp [decodeFields, instrFields]
  | encode n p | encodeU1 n p | encodeU2 n p =>
    cases p <;> simp [decodeFields, instrFields, policyBit, policyOfBit]
  | _ => rfl

theorem decode_encode {i : Instr} (h : i.wf = true) : decode (encode i) = .ok i :=
  (congrArg decodeFields (fieldsOf_encode i)).trans (decodeFields_instrFields h)

/-- Settles O3: a word's fields are those it was made of, and the decoder reads each operand back from its field. -/
theorem decodeOfEncode : Obligations.DecodeOfEncode := fun _ h => decode_encode h

/-! ### Encode of decode -/

theorem ofBool_append_of_unused {m : BitVec 4} (h : m.extractLsb' 1 3 = 0) :
    0b000#3 ++ BitVec.ofBool (m.getLsbD 0) = m := by
  revert m; decide

theorem encodeMod_of_fields {m : BitVec 4} {sym : Nat} (htop : m.getLsbD 3 = false)
    (hsym : (m.extractLsb' 0 2).toNat = sym) :
    0b0#1 ++ policyBit (policyOfBit (m.getLsbD 2)) ++ BitVec.ofNat 2 sym = m := by
  subst hsym; revert m; decide

theorem eq_ofNat_of_toNat_eq {n : Nat} {x : BitVec 4} (h : x.toNat = n) : x = BitVec.ofNat 4 n := by
  rw [← h, BitVec.ofNat_toNat, BitVec.setWidth_eq]

theorem ite_ok_eq_ok_iff {p : Prop} [Decidable p] {i j : Instr} {e : Illegal} :
    (if p then .ok i else .error e) = Except.ok j ↔ p ∧ i = j := by
  split <;> simp [*]

theorem ite_error_eq_ok_iff {p : Prop} [Decidable p] {x : Except Illegal Instr} {j : Instr} {e : Illegal} :
    (if p then .error e else x) = .ok j ↔ ¬ p ∧ x = .ok j := by
  split <;> simp [*]

/-- The fields of the command that some fields decode to are those fields: the decoder has tested every field that the
command does not carry. -/
theorem instrFields_of_decodeFields {f : Fields} {i : Instr} (h : decodeFields f = .ok i) : instrFields i = f := by
  obtain ⟨op, mod, rsv, a, w, v⟩ := f
  unfold decodeFields at h
  rw [ite_error_eq_ok_iff] at h
  obtain ⟨hrsv, h⟩ := h
  obtain rfl : rsv = 0 := not_not.1 hrsv
  split at h
  -- SETBITS
  case h_3 hop =>
    obtain rfl := eq_ofNat_of_toNat_eq hop
    rw [ite_error_eq_ok_iff, ite_ok_eq_ok_iff] at h
    obtain ⟨hmod, -, rfl⟩ := h
    simp_all [instrFields]
  -- SETBIT
  case h_4 hop =>
    obtain rfl := eq_ofNat_of_toNat_eq hop
    rw [ite_ok_eq_ok_iff] at h
    obtain ⟨⟨hmod, rfl, rfl⟩, rfl⟩ := h
    exact congrArg (fun m => Fields.mk 0x4 m 0 a 0 0) (ofBool_append_of_unused hmod)
  -- ENCODE, by its two-bit `SYM`
  case h_8 hop =>
    obtain rfl := eq_ofNat_of_toNat_eq hop
    rw [ite_error_eq_ok_iff] at h
    obtain ⟨hunused, h⟩ := h
    simp only [not_or, not_not, Bool.not_eq_true] at hunused
    obtain ⟨htop, rfl, rfl⟩ := hunused
    split at h
    case h_4 => cases h
    all_goals
      rename_i hsym
      cases h
      exact congrArg (fun m => Fields.mk 0x8 m 0 0 0 v) (encodeMod_of_fields htop hsym)
  case h_9 => cases h
  all_goals
    rename_i hop
    rw [ite_ok_eq_ok_iff] at h
    obtain ⟨hunused, rfl⟩ := h
    obtain rfl := eq_ofNat_of_toNat_eq hop
    simp_all [instrFields]

theorem encode_of_decode {word : Cmd} {i : Instr} (h : decode word = .ok i) : encode i = word :=
  (congrArg wordOf (instrFields_of_decodeFields h)).trans (wordOf_fieldsOf word)

/-- Settles O4: the decoder tests every field it does not read an operand from, and the fields make up the word. -/
theorem encodeOfDecode : Obligations.EncodeOfDecode := fun _ _ h => ⟨encode_of_decode h, wf_of_decode h⟩

/-! ### The opcode map -/

/-- Every field of the word, under the row's mask, is the row's. -/
def OpcodeRow.Matches (row : OpcodeRow) (f : Fields) : Prop :=
  f.op &&& (fieldsOf row.mask).op = (fieldsOf row.pattern).op ∧
  f.mod &&& (fieldsOf row.mask).mod = (fieldsOf row.pattern).mod ∧
  f.rsv &&& (fieldsOf row.mask).rsv = (fieldsOf row.pattern).rsv ∧
  f.a &&& (fieldsOf row.mask).a = (fieldsOf row.pattern).a ∧
  f.w &&& (fieldsOf row.mask).w = (fieldsOf row.pattern).w ∧
  f.v &&& (fieldsOf row.mask).v = (fieldsOf row.pattern).v

/-- A word matches a row exactly if its fields do. -/
theorem land_mask_eq_pattern_iff (word : Cmd) (row : OpcodeRow) :
    word &&& row.mask = row.pattern ↔ row.Matches (fieldsOf word) := by
  have hinj : word &&& row.mask = row.pattern ↔ fieldsOf (word &&& row.mask) = fieldsOf row.pattern :=
    ⟨congrArg fieldsOf, fun h => by rw [← wordOf_fieldsOf (word &&& row.mask), h, wordOf_fieldsOf]⟩
  rw [hinj, Fields.mk.injEq]
  simp only [fieldsOf, BitVec.extractLsb'_and, OpcodeRow.Matches]

theorem land_ones {w n : Nat} (x : BitVec w) (h : n = 2 ^ w - 1) : x &&& BitVec.ofNat w n = x := by
  have hones : BitVec.ofNat w n = BitVec.allOnes w := BitVec.eq_of_toNat_eq (by simp [h])
  rw [hones, BitVec.and_allOnes]

/-- The mask leaves the low seven bits of SETBITS' `W` open, which is enough for 64. -/
theorem land_width_mask {w : Half} (h : w.toNat ≤ 64) : w &&& 0xFF80#16 = 0#16 := by
  have hsmall : ∀ n ≤ 64, n &&& 0xFF80 = 0 := by decide
  exact BitVec.eq_of_toNat_eq ((BitVec.toNat_and w _).trans (hsmall _ h))

theorem setbitMod_of_land {m : BitVec 4} (h : m &&& 0xE#4 = 0#4) : 0b000#3 ++ BitVec.ofBool (m.getLsbD 0) = m := by
  revert m; decide

theorem encodeMod_of_land {m : BitVec 4} {sym : BitVec 2} (h : m &&& 0xB#4 = sym.setWidth 4) :
    0b0#1 ++ policyBit (policyOfBit (m.getLsbD 2)) ++ sym = m := by
  revert m sym; decide

/-- A well-formed command's fields match the row of its mnemonic. -/
theorem exists_row_of_wf {i : Instr} (h : i.wf = true) :
    ∃ row ∈ opcodeRows, row.mnemonic = i.mnemonic ∧ row.Matches (instrFields i) ∧
      (i.mnemonic = "SETBITS" → (instrFields i).w.toNat ≤ 64) := by
  cases i with
  | setbits v a w =>
    have h64 : w.toNat ≤ 64 := by simpa [Instr.wf] using h
    simp [opcodeRows, Instr.mnemonic, OpcodeRow.Matches, fieldsOf, instrFields, h64, land_width_mask]
  | setbit a b =>
    cases b <;> simp [opcodeRows, Instr.mnemonic, OpcodeRow.Matches, fieldsOf, instrFields]
  | encode n p | encodeU1 n p | encodeU2 n p =>
    cases p <;> simp [opcodeRows, Instr.mnemonic, OpcodeRow.Matches, fieldsOf, instrFields, policyBit]
  | _ => simp [opcodeRows, Instr.mnemonic, OpcodeRow.Matches, fieldsOf, instrFields]

/-- Fields that match a row, with SETBITS' width in its bound, are those of a well-formed command. -/
theorem exists_wf_of_row {f : Fields} {row : OpcodeRow} (hrow : row ∈ opcodeRows) (h : row.Matches f)
    (h64 : row.mnemonic = "SETBITS" → f.w.toNat ≤ 64) :
    ∃ i, i.wf = true ∧ instrFields i = f ∧ i.mnemonic = row.mnemonic := by
  obtain ⟨op, mod, rsv, a, w, v⟩ := f
  simp only [opcodeRows, List.mem_cons, List.not_mem_nil, or_false] at hrow
  rcases hrow with rfl | rfl | rfl | rfl | rfl | rfl | rfl | rfl | rfl | rfl <;>
    simp only [OpcodeRow.Matches, fieldsOf, BitVec.reduceExtractLsb', land_ones, BitVec.and_zero, Nat.reducePow,
      Nat.reduceSub, true_and, and_true] at h
  · obtain ⟨rfl, rfl, rfl, rfl, rfl⟩ := h
    exact ⟨.create a, rfl, rfl, rfl⟩
  · obtain ⟨rfl, rfl, rfl, rfl⟩ := h
    exact ⟨.append v w, rfl, rfl, rfl⟩
  · obtain ⟨rfl, rfl, rfl, -⟩ := h
    exact ⟨.setbits v a w, decide_eq_true (h64 rfl), rfl, rfl⟩
  · obtain ⟨rfl, hmod, rfl, rfl, rfl⟩ := h
    exact ⟨.setbit a (mod.getLsbD 0), rfl, congrArg (Fields.mk 0x4 · 0 a 0 0) (setbitMod_of_land hmod), rfl⟩
  · obtain ⟨rfl, rfl, rfl, rfl, rfl, rfl⟩ := h
    exact ⟨.rawbytes, rfl, rfl, rfl⟩
  · obtain ⟨rfl, rfl, rfl, rfl, rfl, rfl⟩ := h
    exact ⟨.bitcount, rfl, rfl, rfl⟩
  · obtain ⟨rfl, rfl, rfl, rfl, rfl, rfl⟩ := h
    exact ⟨.tobitstr, rfl, rfl, rfl⟩
  · obtain ⟨rfl, hmod, rfl, rfl, rfl⟩ := h
    exact ⟨.encode v (policyOfBit (mod.getLsbD 2)), rfl,
      congrArg (Fields.mk 0x8 · 0 0 0 v) (encodeMod_of_land (sym := 0) hmod), rfl⟩
  · obtain ⟨rfl, hmod, rfl, rfl, rfl⟩ := h
    exact ⟨.encodeU1 v (policyOfBit (mod.getLsbD 2)), rfl,
      congrArg (Fields.mk 0x8 · 0 0 0 v) (encodeMod_of_land (sym := 1) hmod), rfl⟩
  · obtain ⟨rfl, hmod, rfl, rfl, rfl⟩ := h
    exact ⟨.encodeU2 v (policyOfBit (mod.getLsbD 2)), rfl,
      congrArg (Fields.mk 0x8 · 0 0 0 v) (encodeMod_of_land (sym := 2) hmod), rfl⟩

theorem decode_eq_ok_iff {word : Cmd} {i : Instr} :
    decode word = .ok i ↔ i.wf = true ∧ instrFields i = fieldsOf word :=
  ⟨fun h => ⟨wf_of_decode h, instrFields_of_decodeFields h⟩,
   fun ⟨hwf, hf⟩ => (congrArg decodeFields hf).symm.trans (decodeFields_instrFields hwf)⟩

/-- Settles O6: a row's match and mask are compared field by field with the fields of the row's commands. -/
theorem opcodeMapSelectsCommand : Obligations.OpcodeMapSelectsCommand := by
  intro word name
  constructor
  · rintro ⟨i, hd, rfl⟩
    obtain ⟨hwf, hf⟩ := decode_eq_ok_iff.1 hd
    obtain ⟨row, hrow, hname, hmatch, h64⟩ := exists_row_of_wf hwf
    rw [hf] at hmatch h64
    exact ⟨row, hrow, hname, (land_mask_eq_pattern_iff word row).2 hmatch, h64⟩
  · rintro ⟨row, hrow, rfl, hmatch, h64⟩
    obtain ⟨i, hwf, hf, hname⟩ := exists_wf_of_row hrow ((land_mask_eq_pattern_iff word row).1 hmatch) h64
    exact ⟨i, decode_eq_ok_iff.2 ⟨hwf, hf⟩, hname⟩

/-! ### Words on the command port -/

theorem tableWord_toNat (c : Cmd) : tableWord 128 c.toNat = c := by
  rw [tableWord, Nat.mod_eq_of_lt c.isLt, BitVec.ofNat_toNat, BitVec.setWidth_eq]

theorem decodeTableWord_encode {i : Instr} (h : i.wf = true) : decodeTableWord 128 (encode i).toNat = some i := by
  rw [decodeTableWord, tableWord_toNat, decodeBytes, commandOfBytes_commandBytes, Option.map_some, decode_encode h]

/-- Settles O2: each word is decoded. -/
theorem vectorWordsDecode : Obligations.VectorWordsDecode := by
  refine ⟨?_, ?_, ?_, ?_, ?_, ?_, ?_, ?_, ?_, ?_⟩ <;> decide

end Sys2Proof

namespace Sys2Proof.Machine

/-- A word that decodes is executed once it is taken from the port. -/
theorem step_of_decode {s : State} {word : Cmd} {rest : List HostEvent} {i : Instr}
    (hi : s.inp = .command word :: rest) (hd : decode word = .ok i) : step s = exec i (s.takeEvent rest) :=
  (step_command hi).trans (runWord_ok _ hd)

/-- Settles O1: a step on a command word runs the word, and that executes the command it decodes to. -/
theorem stepRunsDecodedCommand : Obligations.StepRunsDecodedCommand := fun _ _ _ _ hi hd => step_of_decode hi hd

theorem takeEvent_withFetchWord (s : State) (nbits w : Nat) : (s.withFetchWord nbits w).takeEvent s.inp = s := rfl

/-- Settles O5: the word's bits carry the word, and the word taken from the port leaves the state as it stood. -/
theorem offeredWordRunsItsCommand : Obligations.OfferedWordRunsItsCommand := by
  intro i s hwf
  refine ⟨decodeTableWord_encode hwf, ?_⟩
  have hd : decode (tableWord 128 (encode i).toNat) = .ok i :=
    (congrArg decode (tableWord_toNat _)).trans (decode_encode hwf)
  exact (step_of_decode (State.offerWord_inp s _) hd).trans (congrArg (exec i) (takeEvent_withFetchWord s _ _))

end Sys2Proof.Machine
end

section
/-! The buffer after each of the block's writes: the bits ENCODE leaves, and what keeps the invariant of 10_state.md
R18. -/

namespace Sys2Proof.Machine

open Sys2Proof.Config

/-! ### Bits of the new buffers -/

theorem bitRead_newBuffer (c : Half) (s : State) (p : Nat) :
    bitRead (s.newBuffer c).buf p = if p < 8 * nbOf c then false else bitRead s.buf p :=
  bitRead_zeroFill ..

theorem nbOf_ge (c : Half) : c.toNat ≤ 8 * nbOf c := by
  unfold nbOf; omega

@[simp] theorem nb_encodeBuffer (mode : AppendMode) (skip : WideSkip) (T : Tables) (d : Digits) (s : State) :
    (s.encodeBuffer mode skip T d).nb = 15 := by
  rw [State.nb, encodeBuffer_cap]; rfl

/-- Every bit of the buffer that ENCODE makes: the pattern, seven zeros of padding, and what was there from byte 15
on (R91, R60). -/
theorem bitRead_encodeBuffer (mode : AppendMode) (skip : WideSkip) (T : Tables) (d : Digits) (s : State) (p : Nat) :
    bitRead (s.encodeBuffer mode skip T d).buf p =
      if p < 113 then (pattern T d).getD p false else if p < 120 then false else bitRead s.buf p := by
  have hw := totalWidth_patternFields T d
  have hcur : (s.newBuffer (BitVec.ofNat 16 patBits)).cur.toNat = 0 := rfl
  have hnew (q : Nat) : bitRead (s.newBuffer (BitVec.ofNat 16 patBits)).buf q =
      if q < 120 then false else bitRead s.buf q := bitRead_newBuffer _ s q
  rw [encodeBuffer_eq]
  by_cases hp : p < 113
  · have h := bitRead_appendFields mode skip (patternFields T d) (s.newBuffer (BitVec.ofNat 16 patBits))
      (width_patternFields T d) (by omega) (fun q _ hq => by rw [hnew, if_pos (by omega)]) p (by omega)
    rw [hcur, Nat.zero_add] at h
    rw [h, if_pos hp]
    rfl
  · rw [bitRead_appendFields_other _ _ _ _ (by omega) p (by omega), hnew, if_neg hp]

/-! ### The invariant -/

namespace State.Inv

variable {s : State}

theorem answer (h : s.Inv) (r : Response) : (s.answer r).Inv := h

theorem takeEvent (h : s.Inv) (rest : List HostEvent) : (s.takeEvent rest).Inv := h

theorem latchFault (h : s.Inv) : s.latchFault.Inv := h

theorem dropBuffer (h : s.Inv) : s.dropBuffer.Inv := ⟨h.1, nofun⟩

/-- An outcome's effect touches at most the two status bits. -/
theorem outcomeEffect (h : s.Inv) (st : Status) : (outcomeEffect st s).Inv := by
  cases st with
  | checkDigitMismatch | unsupportedSymbology => exact h.dropBuffer
  | boundsFault => exact h.latchFault
  | _ => exact h

theorem newBuffer (h : s.Inv) (c : Half) : (s.newBuffer c).Inv := by
  obtain ⟨hwf, -⟩ := h
  refine ⟨Memory.wf_zeroFill _ _ hwf, fun _ => ⟨Nat.zero_le _, fun p _ hp => ?_⟩⟩
  exact (bitRead_newBuffer c s p).trans (if_pos hp)

/-- New contents that leave the positions from the capacity on alone. -/
theorem withBuf (h : s.Inv) {m : Memory} (hwf : m.wf = true)
    (hpad : ∀ p, s.cap.toNat ≤ p → bitRead m p = bitRead s.buf p) : (s.withBuf m).Inv := by
  refine ⟨hwf, fun hb => ?_⟩
  obtain ⟨hcur, hzero⟩ := h.2 hb
  exact ⟨hcur, fun p h1 h2 => (hpad p h1).trans (hzero p h1 h2)⟩

theorem withCur (h : s.Inv) {c : Half} (hc : c.toNat ≤ s.cap.toNat) : (s.withCur c).Inv :=
  ⟨h.1, fun hb => ⟨hc, (h.2 hb).2⟩⟩

/-- A field written below the capacity. -/
theorem writeField (h : s.Inv) (mode : AppendMode) (v : VWord) {p n : Nat} (hfit : p + n ≤ s.cap.toNat) :
    (s.withBuf (writeField mode v p n s.buf)).Inv := by
  have hcap := s.cap.isLt
  refine h.withBuf (wf_writeField mode v p n _ h.1 (by simp only [bufBytes]; omega)) fun q hq => ?_
  rw [bitRead_writeField, if_neg (by omega)]

theorem bitWrite (h : s.Inv) (mode : AppendMode) (b : Bool) {p : Nat} (hfit : p < s.cap.toNat) :
    (s.withBuf (bitWrite mode s.buf p b)).Inv := by
  have hcap := s.cap.isLt
  refine h.withBuf (wf_bitWrite mode _ p b h.1 (by simp only [bufBytes]; omega)) fun q hq => ?_
  rw [bitRead_bitWrite, if_neg (by omega)]

end State.Inv

/-- The cursor does not wrap in an append that fits. -/
theorem toNat_cur_add {s : State} {w : Half} (hfit : s.cur.toNat + w.toNat ≤ s.cap.toNat) :
    (s.cur + w).toNat = s.cur.toNat + w.toNat := by
  have hcap := s.cap.isLt
  rw [BitVec.toNat_add, Nat.mod_eq_of_lt (by omega)]

theorem State.Inv.appendBits {s : State} (h : s.Inv) (mode : AppendMode) (skip : WideSkip) (v : VWord) {w : Half}
    (hfit : s.cur.toNat + w.toNat ≤ s.cap.toNat) : (s.appendBits mode skip v w).Inv := by
  have hskip := skipBefore_add_min skip w.toNat
  exact (h.writeField mode v (by omega)).withCur ((toNat_cur_add hfit).trans_le hfit)

/-- Appends that fit together. -/
theorem State.Inv.appendFields {s : State} (h : s.Inv) (mode : AppendMode) (skip : WideSkip) {fs : List PatternField}
    (hfit : s.cur.toNat + totalWidth fs ≤ s.cap.toNat) : (appendFields mode skip fs s).Inv := by
  induction fs generalizing s with
  | nil => exact h
  | cons f fs ih =>
    have hw : totalWidth (f :: fs) = f.width.toNat + totalWidth fs := rfl
    have hf : s.cur.toNat + f.width.toNat ≤ s.cap.toNat := by omega
    refine ih (h.appendBits mode skip f.value hf) ?_
    rw [State.appendBits_cur, State.appendBits_cap, toNat_cur_add hf]
    omega

theorem State.Inv.encodeBuffer {s : State} (h : s.Inv) (mode : AppendMode) (skip : WideSkip) (T : Tables) (d : Digits) :
    (s.encodeBuffer mode skip T d).Inv := by
  refine (h.newBuffer _).appendFields mode skip ?_
  rw [totalWidth_patternFields]
  exact Nat.le_refl 113

end Sys2Proof.Machine
end

section
/-! What a command does and what it answers, as functions of the command and the state: `exec_eq` says `exec` is these
two, so a fact about every command is a fact about them, by the status of 60_exceptions.md R128. -/

namespace Sys2Proof.Machine

/-! ### Success -/

/-- What a command's success makes of the block. -/
def successEffect (i : Instr) (s : State) : State :=
  match i with
  | .create c => s.newBuffer c
  | .append v w => s.appendBits appendMode wideSkip v w
  | .setbits v a w => s.withBuf (writeField .overwrite v a.toNat w.toNat s.buf)
  | .setbit a b => s.withBuf (bitWrite .overwrite s.buf a.toNat b)
  | .encode n _ => s.encodeBuffer appendMode wideSkip tables (digits n.toNat)
  | .rawbytes | .bitcount | .tobitstr | .encodeU1 _ _ | .encodeU2 _ _ => s

/-- What a command answers on success. -/
def successReply (i : Instr) (s : State) : Response :=
  match i with
  | .rawbytes => ⟨.ok, BitVec.ofNat 16 s.nb, s.buf.readBytes s.nb⟩
  | .bitcount => ⟨.ok, s.cur, []⟩
  | .tobitstr => ⟨.ok, s.cur, bitString s.buf s.cur.toNat⟩
  | .encode n _ => ⟨.ok, BitVec.ofNat 16 Config.patBits, displayBytes (digits n.toNat)⟩
  | .create _ | .append _ _ | .setbits _ _ _ | .setbit _ _ | .encodeU1 _ _ | .encodeU2 _ _ => ⟨.ok, 0, []⟩

section

variable {i : Instr} {s t : State} {r : Response}

/-- A command that succeeds is past every item of the priority list. -/
theorem of_execStatus_ok (h : execStatus i s = .ok) : i.wf = true ∧ s.flt = false ∧ commandStatus i s = .ok :=
  (execStatus_eq_iff (st := .ok) nofun nofun).1 h

theorem bv_of_execStatus_ok (h : execStatus i s = .ok) (hn : needsBuffer i = true) : s.bv = true := by
  obtain ⟨-, -, hc⟩ := of_execStatus_ok h
  have hno : ¬ (needsBuffer i = true ∧ s.bv = false) := fun hb => by
    cases hc.symm.trans (commandStatus_eq_noBuffer_iff.2 hb)
  simpa [hn] using hno

theorem exceedsCapacity_of_execStatus_ok (h : execStatus i s = .ok) : exceedsCapacity i s = false := by
  obtain ⟨-, -, hc⟩ := of_execStatus_ok h
  cases he : exceedsCapacity i s with
  | false => rfl
  | true =>
    have hb := bv_of_execStatus_ok h (needsBuffer_of_exceedsCapacity he)
    cases hc.symm.trans (commandStatus_eq_boundsFault_iff.2 ⟨hb, he⟩)

theorem append_fits_of_ok {v : VWord} {w : Half} (h : execStatus (.append v w) s = .ok) :
    s.cur.toNat + w.toNat ≤ s.cap.toNat :=
  Nat.le_of_not_lt (of_decide_eq_false (exceedsCapacity_of_execStatus_ok h))

theorem setbits_fits_of_ok {v : VWord} {a w : Half} (h : execStatus (.setbits v a w) s = .ok) :
    a.toNat + w.toNat ≤ s.cap.toNat :=
  Nat.le_of_not_lt (of_decide_eq_false (exceedsCapacity_of_execStatus_ok h))

theorem setbit_fits_of_ok {a : Half} {b : Bool} (h : execStatus (.setbit a b) s = .ok) : a.toNat < s.cap.toNat :=
  Nat.le_of_not_lt (of_decide_eq_false (exceedsCapacity_of_execStatus_ok h))

/-- The unimplemented variants never succeed. -/
theorem commandStatus_unsupported {n : VWord} {p : Policy} :
    commandStatus (.encodeU1 n p) s = .unsupportedSymbology ∧
    commandStatus (.encodeU2 n p) s = .unsupportedSymbology := by
  simp [commandStatus, needsBuffer, exceedsCapacity]

/-- The tests of a buffer command, all passed. -/
theorem bufferCommand_of_pass {x : Result} (hf : s.flt = false) (hb : s.bv = true) :
    unlessFaulted s (withBuffer s x) = x :=
  (unlessFaulted_of_ok hf).trans (withBuffer_of_bv hb)

theorem exec_of_ok (h : execStatus i s = .ok) :
    exec i s = .next ((successEffect i s).answer (successReply i s)) := by
  obtain ⟨hwf, hf, hc⟩ := of_execStatus_ok h
  cases i with
  | create c => exact unlessFaulted_of_ok hf
  | append v w =>
    exact (bufferCommand_of_pass hf (bv_of_execStatus_ok h rfl)).trans
      (if_pos ((rangeFits_iff ..).2 (append_fits_of_ok h)))
  | setbits v a w =>
    calc exec (.setbits v a w) s
        = _ := unlessFaulted_of_ok hf
      _ = _ := if_pos (of_decide_eq_true hwf)
      _ = _ := withBuffer_of_bv (bv_of_execStatus_ok h rfl)
      _ = _ := if_pos ((rangeFits_iff ..).2 (setbits_fits_of_ok h))
  | setbit a b =>
    exact (bufferCommand_of_pass hf (bv_of_execStatus_ok h rfl)).trans
      (if_pos ((rangeFits_iff ..).2 (setbit_fits_of_ok h)))
  | rawbytes | bitcount | tobitstr => exact bufferCommand_of_pass hf (bv_of_execStatus_ok h rfl)
  | encode n p =>
    rw [commandStatus_encode] at hc
    exact (unlessFaulted_of_ok hf).trans (if_neg fun hmis => by cases hc.symm.trans (if_pos hmis))
  | encodeU1 n p => cases hc.symm.trans commandStatus_unsupported.1
  | encodeU2 n p => cases hc.symm.trans commandStatus_unsupported.2

end

/-! ### Every outcome -/

/-- The `VAL` of a command's mismatch, the expected digit of its number (R121). -/
def mismatchVal : Instr → Half
  | .encode n _ => BitVec.ofNat 16 (expected (digits n.toNat))
  | .create _ | .append _ _ | .setbits _ _ _ | .setbit _ _ | .rawbytes | .bitcount | .tobitstr
  | .encodeU1 _ _ | .encodeU2 _ _ => 0

/-- What a command makes of the block: its own effect on success, else the outcome's. -/
def commandEffect (i : Instr) (s : State) : State :=
  if execStatus i s = .ok then successEffect i s else outcomeEffect (execStatus i s) s

/-- What a command answers: its own response on success, else the outcome's. -/
def commandReply (i : Instr) (s : State) : Response :=
  if execStatus i s = .ok then successReply i s
  else ⟨execStatus i s, if execStatus i s = .checkDigitMismatch then mismatchVal i else 0, []⟩

section

variable {i : Instr} {s t : State} {r : Response}

theorem commandEffect_of_ok (h : execStatus i s = .ok) : commandEffect i s = successEffect i s := if_pos h

theorem commandEffect_of_not_ok (h : execStatus i s ≠ .ok) :
    commandEffect i s = outcomeEffect (execStatus i s) s := if_neg h

theorem commandReply_of_ok (h : execStatus i s = .ok) : commandReply i s = successReply i s := if_pos h

/-- The ENCODE commands apart, a command's status is NO_BUFFER, BOUNDS_FAULT or OK. -/
theorem commandStatus_cases (i : Instr) (s : State) :
    (∃ n p, i = .encode n p) ∨ (∃ n p, i = .encodeU1 n p ∨ i = .encodeU2 n p) ∨
    commandStatus i s ∈ [.noBuffer, .boundsFault, .ok] := by
  cases i with
  | encode n p => exact .inl ⟨n, p, rfl⟩
  | encodeU1 n p => exact .inr (.inl ⟨n, p, .inl rfl⟩)
  | encodeU2 n p => exact .inr (.inl ⟨n, p, .inr rfl⟩)
  | _ =>
    refine .inr (.inr ?_)
    unfold commandStatus
    split
    · simp
    · split <;> simp

/-- A mismatch is ENCODE's of the implemented symbology, under Validate, of a number with a nonzero checksum. -/
theorem execStatus_eq_mismatch_iff : execStatus i s = .checkDigitMismatch ↔
    s.flt = false ∧ ∃ n, i = .encode n .validate ∧ checksum (digits n.toNat) ≠ 0 := by
  rw [execStatus_eq_iff (st := .checkDigitMismatch) nofun nofun]
  constructor
  · rintro ⟨-, hf, hc⟩
    refine ⟨hf, ?_⟩
    obtain ⟨n, p, rfl⟩ | ⟨n, p, rfl | rfl⟩ | hother := commandStatus_cases i s
    · rw [commandStatus_encode] at hc
      split at hc
      next hmis =>
        obtain ⟨rfl, hne⟩ := hmis
        exact ⟨n, rfl, hne⟩
      next => cases hc
    · cases commandStatus_unsupported.1.symm.trans hc
    · cases commandStatus_unsupported.2.symm.trans hc
    · simp [hc] at hother
  · rintro ⟨hf, n, rfl, hne⟩
    exact ⟨rfl, hf, (commandStatus_encode n .validate).trans (if_pos ⟨rfl, hne⟩)⟩

/-- UNSUPPORTED_SYMBOLOGY is the unimplemented variants' alone. -/
theorem execStatus_eq_unsupported_iff : execStatus i s = .unsupportedSymbology ↔
    s.flt = false ∧ ∃ n p, i = .encodeU1 n p ∨ i = .encodeU2 n p := by
  rw [execStatus_eq_iff (st := .unsupportedSymbology) nofun nofun]
  constructor
  · rintro ⟨-, hf, hc⟩
    refine ⟨hf, ?_⟩
    obtain ⟨n, p, rfl⟩ | hvariant | hother := commandStatus_cases i s
    · rw [commandStatus_encode] at hc
      split at hc <;> cases hc
    · exact hvariant
    · simp [hc] at hother
  · rintro ⟨hf, n, p, rfl | rfl⟩
    · exact ⟨rfl, hf, commandStatus_unsupported.1⟩
    · exact ⟨rfl, hf, commandStatus_unsupported.2⟩

theorem exec_of_mismatch (h : execStatus i s = .checkDigitMismatch) :
    exec i s = .next (s.dropBuffer.answer ⟨.checkDigitMismatch, mismatchVal i, []⟩) := by
  obtain ⟨hf, n, rfl, hne⟩ := execStatus_eq_mismatch_iff.1 h
  exact (unlessFaulted_of_ok hf).trans (if_pos ⟨rfl, hne⟩)

/-- Every command is its effect and then its response. -/
theorem exec_eq (i : Instr) (s : State) : exec i s = .next ((commandEffect i s).answer (commandReply i s)) := by
  obtain ⟨u, r, e, ho, hst⟩ := exec_outcome_status i s
  have hst := hst.symm
  cases ho with
  | ok =>
    rw [commandEffect_of_ok hst, commandReply_of_ok hst]
    exact exec_of_ok hst
  | checkDigitMismatch =>
    rw [commandEffect, commandReply, hst]
    exact exec_of_mismatch hst
  | _ =>
    rw [commandEffect, commandReply, hst]
    exact e

/-- What a completed command's next state and response are. -/
theorem of_exec_next (h : exec i s = .next t) : t = (commandEffect i s).answer (commandReply i s) :=
  next_inj (h.symm.trans (exec_eq i s))

theorem commandEffect_out (i : Instr) (s : State) : (commandEffect i s).out = s.out := by
  obtain ⟨u, r, e, ho⟩ := exec_outcome i s
  have hu : u.out ++ [r] = (commandEffect i s).out ++ [commandReply i s] := congrArg State.out (of_exec_next e)
  exact (List.append_singleton_inj.1 hu).1.symm.trans ho.out_eq

theorem reply_of_exec_next (h : exec i s = .next t) (hr : t.out = s.out ++ [r]) : r = commandReply i s := by
  rw [of_exec_next h, State.answer_out, commandEffect_out] at hr
  exact (List.append_singleton_inj.1 hr).2.symm

end

/-! ### Command words -/

/-- What a command word makes of the block; an illegal one changes nothing. -/
def wordEffect (word : Cmd) (s : State) : State :=
  match decode word with
  | .ok i => commandEffect i s
  | .error _ => s

theorem wordEffect_of_ok {word : Cmd} {i : Instr} (s : State) (hd : decode word = .ok i) :
    wordEffect word s = commandEffect i s := by
  simp [wordEffect, hd]

theorem wordEffect_of_error {word : Cmd} {e : Illegal} (s : State) (hd : decode word = .error e) :
    wordEffect word s = s := by
  simp [wordEffect, hd]

/-- What a command word is answered. -/
def wordReply (word : Cmd) (s : State) : Response :=
  match decode word with
  | .ok i => commandReply i s
  | .error _ => ⟨wordStatus word s, 0, []⟩

/-- A command word, legal or not, is its effect and then its response. -/
theorem runWord_eq (word : Cmd) (s : State) :
    runWord word s = .next ((wordEffect word s).answer (wordReply word s)) := by
  cases hd : decode word with
  | ok i =>
    rw [runWord_ok s hd, exec_eq, wordEffect_of_ok s hd]
    simp [wordReply, hd]
  | error e =>
    rw [runWord_error s hd, wordEffect_of_error s hd]
    simp only [wordReply, hd, wordStatus_of_error hd]
    obtain ⟨hf, h⟩ | ⟨hf, h⟩ := refuseIllegal_cases s <;> simp [h, hf]

/-- A completed step waits, resets, or is the effect of a command word and the response to it. -/
theorem step_next_effect {s t : State} (h : step s = .next t) :
    (s.inp = [] ∧ t = s) ∨
    (∃ rest, s.inp = .reset :: rest ∧ t = (s.takeEvent rest).resetBlock) ∨
    (∃ word rest, s.inp = .command word :: rest ∧
      t = (wordEffect word (s.takeEvent rest)).answer (wordReply word (s.takeEvent rest))) := by
  obtain ⟨hi, e⟩ | ⟨rest, hi, e⟩ | ⟨word, rest, hi, e⟩ := step_cases s
  · exact .inl ⟨hi, next_inj (h.symm.trans e)⟩
  · exact .inr (.inl ⟨rest, hi, next_inj (h.symm.trans e)⟩)
  · exact .inr (.inr ⟨word, rest, hi, next_inj (h.symm.trans (e.trans (runWord_eq ..)))⟩)

end Sys2Proof.Machine
end

section
/-! What every step keeps: the invariant, the bits that no command writes, and that unspecified storage is not observed
(10_state.md R18, R19, R21 to R23). -/

namespace Sys2Proof.Machine

open Sys2Proof.Config

/-! ### The invariant -/

theorem State.Inv.successEffect {i : Instr} {s : State} (h : s.Inv) (hok : execStatus i s = .ok) :
    (successEffect i s).Inv := by
  cases i with
  | create c => exact h.newBuffer c
  | append v w => exact h.appendBits _ _ v (append_fits_of_ok hok)
  | setbits v a w => exact h.writeField _ v (setbits_fits_of_ok hok)
  | setbit a b => exact h.bitWrite _ b (setbit_fits_of_ok hok)
  | encode n p => exact h.encodeBuffer _ _ _ _
  | _ => exact h

theorem State.Inv.commandEffect {s : State} (h : s.Inv) (i : Instr) : (commandEffect i s).Inv := by
  by_cases hok : execStatus i s = .ok
  · rw [commandEffect_of_ok hok]; exact h.successEffect hok
  · rw [commandEffect_of_not_ok hok]; exact h.outcomeEffect _

theorem State.Inv.wordEffect {s : State} (h : s.Inv) (word : Cmd) : (wordEffect word s).Inv := by
  cases hd : decode word with
  | ok i => rw [wordEffect_of_ok s hd]; exact h.commandEffect i
  | error e => rw [wordEffect_of_error s hd]; exact h

theorem State.resetBlock_inv (s : State) : s.resetBlock.Inv := ⟨reset_buf_wf, nofun⟩

/-- Settles O20: waiting and reset at once, a command word by the effect of its command. -/
theorem stepKeepsInvariant : Obligations.StepKeepsInvariant := by
  intro s t hs h
  obtain ⟨-, rfl⟩ | ⟨rest, -, rfl⟩ | ⟨word, rest, -, rfl⟩ := step_next_effect h
  · exact hs
  · exact State.resetBlock_inv _
  · exact ((hs.takeEvent rest).wordEffect word).answer _

/-- Settles O19: the reset state's fields, and its empty storage is canonical. -/
theorem resetMeetsInvariant : Obligations.ResetMeetsInvariant :=
  ⟨State.reset_bv, State.reset_flt, State.reset_cap, State.reset_cur, reset_buf_wf, nofun⟩

/-- Settles O18: the two kinds of step that run no command. -/
theorem resetEventAndWaiting : Obligations.ResetEventAndWaiting :=
  ⟨fun _ _ hi => step_reset hi, fun _ hi => step_wait hi⟩

/-- Settles O16: waiting, reset and every command word give a next state. -/
theorem everyStepCompletes : Obligations.EveryStepCompletes := by
  intro s
  obtain ⟨-, e⟩ | ⟨rest, -, e⟩ | ⟨word, rest, -, e⟩ := step_cases s
  · exact ⟨_, e⟩
  · exact ⟨_, e⟩
  · exact ⟨_, e.trans (runWord_eq ..)⟩

/-! ### Bits that no command writes -/

theorem outcomeEffect_buf (st : Status) (s : State) : (outcomeEffect st s).buf = s.buf := by
  cases st <;> rfl

/-- A command keeps every bit that it neither writes nor gives up with the buffer. -/
theorem bitRead_commandEffect {i : Instr} {s : State} {p : Nat} (hr : replacesBuffer i = false)
    (hw : ¬ writesPosition i s p) : bitRead (commandEffect i s).buf p = bitRead s.buf p := by
  by_cases hok : execStatus i s = .ok
  case neg => rw [commandEffect_of_not_ok hok, outcomeEffect_buf]
  case pos =>
    rw [commandEffect_of_ok hok]
    cases i with
    | append v w =>
      simp only [writesPosition] at hw
      refine (bitRead_appendBits ..).trans (if_neg ?_)
      simp only [wideSkip, skipBefore]
      omega
    | setbits v a w => exact (bitRead_writeField ..).trans (if_neg hw)
    | setbit a b => exact (bitRead_bitWrite ..).trans (if_neg hw)
    | rawbytes | bitcount | tobitstr => rfl
    | _ => cases hr

/-- Settles O51: a waiting step changes nothing, and a command word does what its command does. -/
theorem stepKeepsUnwrittenBits : Obligations.StepKeepsUnwrittenBits := by
  intro s t p hreset hcmd h
  obtain ⟨-, rfl⟩ | ⟨rest, hi, -⟩ | ⟨word, rest, hi, rfl⟩ := step_next_effect h
  · rfl
  · exact absurd hi (hreset rest)
  · cases hd : decode word with
    | ok i =>
      obtain ⟨hr, hw⟩ := hcmd word rest i hi hd
      rw [wordEffect_of_ok _ hd]
      exact bitRead_commandEffect (s := s.takeEvent rest) hr hw
    | error e => rw [wordEffect_of_error _ hd]; rfl

theorem bitRead_execAll {p : Nat} {cmds : List Instr} {s t : State} (hl : leavesPosition p cmds s)
    (h : execAll cmds s = .next t) : bitRead t.buf p = bitRead s.buf p := by
  induction cmds generalizing s with
  | nil => rw [next_inj h]
  | cons i rest ih =>
    obtain ⟨hr, hw, hrest⟩ := hl
    have e := exec_eq i s
    rw [execAll, e] at h
    exact (ih (hrest _ e) h).trans (bitRead_commandEffect hr hw)

/-- Settles O21: CREATE zeroes the bit, and by induction on the commands it stays as CREATE left it. -/
theorem unwrittenBitsReadZero : Obligations.UnwrittenBitsReadZero := by
  intro c s made t cmds p hf hmade hp hl h
  have hzero : made = (s.newBuffer c).answer ⟨.ok, 0, []⟩ := next_inj (hmade.symm.trans (unlessFaulted_of_ok hf))
  have hnb := nbOf_ge c
  rw [bitRead_execAll hl h, hzero, State.answer_buf, bitRead_newBuffer, if_pos (by omega)]

/-! ### The host's lists -/

/-- The block with other events to come and other responses given. -/
def State.withPorts (s : State) (events : List HostEvent) (past : List Response) : State :=
  { s with inp := events, out := past }

section withPorts

variable (s : State) (events events' : List HostEvent) (past past' : List Response)

@[simp] theorem withPorts_bv : (s.withPorts events past).bv = s.bv := (rfl)
@[simp] theorem withPorts_cap : (s.withPorts events past).cap = s.cap := (rfl)
@[simp] theorem withPorts_cur : (s.withPorts events past).cur = s.cur := (rfl)
@[simp] theorem withPorts_buf : (s.withPorts events past).buf = s.buf := (rfl)
@[simp] theorem withPorts_flt : (s.withPorts events past).flt = s.flt := (rfl)
@[simp] theorem withPorts_inp : (s.withPorts events past).inp = events := (rfl)
@[simp] theorem withPorts_out : (s.withPorts events past).out = past := (rfl)
@[simp] theorem withPorts_withPorts :
    (s.withPorts events past).withPorts events' past' = s.withPorts events' past' := (rfl)

end withPorts

theorem appendFields_withPorts (mode : AppendMode) (skip : WideSkip) (fs : List PatternField) (s : State)
    (events : List HostEvent) (past : List Response) :
    appendFields mode skip fs (s.withPorts events past) = (appendFields mode skip fs s).withPorts events past := by
  induction fs generalizing s with
  | nil => rfl
  | cons f fs ih => exact ih (s.appendBits mode skip f.value f.width)

section

variable (i : Instr) (s : State) (events : List HostEvent) (past : List Response)

theorem execStatus_withPorts : execStatus i (s.withPorts events past) = execStatus i s := by
  cases i <;> rfl

theorem commandReply_withPorts : commandReply i (s.withPorts events past) = commandReply i s := by
  rw [commandReply, commandReply, execStatus_withPorts]
  cases i <;> rfl

theorem outcomeEffect_withPorts (st : Status) :
    outcomeEffect st (s.withPorts events past) = (outcomeEffect st s).withPorts events past := by
  cases st <;> rfl

theorem successEffect_withPorts :
    successEffect i (s.withPorts events past) = (successEffect i s).withPorts events past := by
  cases i with
  | encode n p => exact appendFields_withPorts _ _ _ (s.newBuffer _) events past
  | _ => rfl

theorem commandEffect_withPorts :
    commandEffect i (s.withPorts events past) = (commandEffect i s).withPorts events past := by
  rw [commandEffect, commandEffect, execStatus_withPorts, successEffect_withPorts, outcomeEffect_withPorts]
  split <;> rfl

end

/-- Settles O23: status, effect and response are the same functions of the block, whatever its ports. -/
theorem portsAreNotState : Obligations.PortsAreNotState := by
  intro i s t r events past h hr
  obtain rfl := reply_of_exec_next h hr
  obtain rfl := of_exec_next h
  have e := exec_eq i (s.withPorts events past)
  rw [commandEffect_withPorts, commandReply_withPorts] at e
  exact e

/-! ### What cannot be observed -/

namespace State.Agree

variable {s s' : State}

theorem answer (h : s.Agree s') (r : Response) : (s.answer r).Agree (s'.answer r) := by
  obtain ⟨hinp, hout, hflt, hbv, hbuf⟩ := h
  exact ⟨hinp, congrArg (· ++ [r]) hout, hflt, hbv, hbuf⟩

theorem takeEvent (h : s.Agree s') (rest : List HostEvent) : (s.takeEvent rest).Agree (s'.takeEvent rest) := by
  obtain ⟨-, hout, hflt, hbv, hbuf⟩ := h
  exact ⟨rfl, hout, hflt, hbv, hbuf⟩

theorem resetBlock (h : s.Agree s') : s.resetBlock.Agree s'.resetBlock := by
  obtain ⟨hinp, hout, -, -, -⟩ := h
  exact ⟨hinp, hout, rfl, rfl, nofun⟩

theorem outcomeEffect (h : s.Agree s') (st : Status) : (outcomeEffect st s).Agree (outcomeEffect st s') := by
  obtain ⟨hinp, hout, hflt, hbv, hbuf⟩ := h
  cases st with
  | checkDigitMismatch | unsupportedSymbology => exact ⟨hinp, hout, hflt, rfl, nofun⟩
  | boundsFault => exact ⟨hinp, hout, rfl, hbv, hbuf⟩
  | _ => exact ⟨hinp, hout, hflt, hbv, hbuf⟩

/-- A buffer made anew has nothing of the old one in its `NB` bytes. -/
theorem newBuffer (h : s.Agree s') (c : Half) : (s.newBuffer c).Agree (s'.newBuffer c) := by
  obtain ⟨hinp, hout, hflt, -, -⟩ := h
  refine ⟨hinp, hout, hflt, rfl, fun _ => ⟨rfl, rfl, fun a ha => ?_⟩⟩
  have hread (m : Memory) : (m.zeroFill (nbOf c)).read a = 0 := (Memory.read_zeroFill ..).trans (if_pos ha)
  exact (hread s.buf).trans (hread s'.buf).symm

/-- Contents that agree below `NB` whenever the old ones do. -/
theorem withBuf (h : s.Agree s') {m m' : Memory}
    (hm : ∀ a, s.buf.read a = s'.buf.read a → m.read a = m'.read a) : (s.withBuf m).Agree (s'.withBuf m') := by
  obtain ⟨hinp, hout, hflt, hbv, hbuf⟩ := h
  refine ⟨hinp, hout, hflt, hbv, fun hb => ?_⟩
  obtain ⟨hcap, hcur, hread⟩ := hbuf hb
  exact ⟨hcap, hcur, fun a ha => hm a (hread a ha)⟩

theorem withCur (h : s.Agree s') (c : Half) : (s.withCur c).Agree (s'.withCur c) := by
  obtain ⟨hinp, hout, hflt, hbv, hbuf⟩ := h
  refine ⟨hinp, hout, hflt, hbv, fun hb => ?_⟩
  obtain ⟨hcap, -, hread⟩ := hbuf hb
  exact ⟨hcap, rfl, hread⟩

end State.Agree

theorem read_writeField_congr (mode : AppendMode) (v : VWord) (p n : Nat) {m m' : Memory} {a : Nat}
    (h : m.read a = m'.read a) : (writeField mode v p n m).read a = (writeField mode v p n m').read a :=
  read_eq_of_bitRead fun q hq => by
    subst hq
    rw [bitRead_writeField, bitRead_writeField, bitRead_congr h]

theorem read_bitWrite_congr (mode : AppendMode) (p : Nat) (b : Bool) {m m' : Memory} {a : Nat}
    (h : m.read a = m'.read a) : (bitWrite mode m p b).read a = (bitWrite mode m' p b).read a :=
  read_eq_of_bitRead fun q hq => by
    subst hq
    rw [bitRead_bitWrite, bitRead_bitWrite, bitRead_congr h]
    split
    next hqp => rw [← hqp, bitRead_congr h]
    next => rfl

theorem State.Agree.appendBits {s s' : State} (h : s.Agree s') (hb : s.bv = true) (mode : AppendMode)
    (skip : WideSkip) (v : VWord) (w : Half) : (s.appendBits mode skip v w).Agree (s'.appendBits mode skip v w) := by
  obtain ⟨-, -, -, -, hbuf⟩ := id h
  obtain ⟨-, hcur, -⟩ := hbuf hb
  simp only [State.appendBits, hcur]
  exact (h.withBuf fun a ha => read_writeField_congr mode v _ _ ha).withCur _

theorem State.Agree.appendFields {s s' : State} (h : s.Agree s') (hb : s.bv = true) (mode : AppendMode)
    (skip : WideSkip) (fs : List PatternField) :
    (appendFields mode skip fs s).Agree (appendFields mode skip fs s') := by
  induction fs generalizing s s' with
  | nil => exact h
  | cons f fs ih => exact ih (h.appendBits hb mode skip f.value f.width) hb

section

variable {i : Instr} {s s' : State}

theorem exceedsCapacity_of_agree (h : s.Agree s') (hb : needsBuffer i = true → s.bv = true) :
    exceedsCapacity i s = exceedsCapacity i s' := by
  obtain ⟨-, -, -, -, hbuf⟩ := h
  cases i with
  | append | setbits | setbit =>
    obtain ⟨hcap, hcur, -⟩ := hbuf (hb rfl)
    simp [exceedsCapacity, hcap, hcur]
  | _ => rfl

/-- Without a buffer the capacity and the cursor are not looked at. -/
theorem commandStatus_of_agree (h : s.Agree s') : commandStatus i s = commandStatus i s' := by
  obtain ⟨-, -, -, hbv, -⟩ := id h
  by_cases hno : needsBuffer i = true ∧ s.bv = false
  · have hno' : needsBuffer i = true ∧ s'.bv = false := hbv ▸ hno
    rw [commandStatus_eq_noBuffer_iff.2 hno, commandStatus_eq_noBuffer_iff.2 hno']
  · have he : exceedsCapacity i s = exceedsCapacity i s' :=
      exceedsCapacity_of_agree h fun hn => by simpa [hn] using hno
    simp only [commandStatus, he, hbv]

theorem execStatus_of_agree (h : s.Agree s') : execStatus i s = execStatus i s' := by
  obtain ⟨-, -, hflt, -, -⟩ := id h
  rw [execStatus, execStatus, hflt, commandStatus_of_agree h]

theorem successReply_of_agree (h : s.Agree s') (hs : s.Inv) (hok : execStatus i s = .ok) :
    successReply i s = successReply i s' := by
  cases i with
  | rawbytes =>
    obtain ⟨-, -, -, -, hbuf⟩ := h
    obtain ⟨hcap, -, hread⟩ := hbuf (bv_of_execStatus_ok hok rfl)
    have hnb : s.nb = s'.nb := congrArg nbOf hcap
    simp only [successReply, Memory.readBytes_congr hread]
    rw [hnb]
  | bitcount =>
    obtain ⟨-, -, -, -, hbuf⟩ := h
    obtain ⟨-, hcur, -⟩ := hbuf (bv_of_execStatus_ok hok rfl)
    simp only [successReply, hcur]
  | tobitstr =>
    obtain ⟨-, -, -, -, hbuf⟩ := h
    have hb := bv_of_execStatus_ok hok rfl
    obtain ⟨-, hcur, hread⟩ := hbuf hb
    obtain ⟨hle, -⟩ := hs.2 hb
    have hnb := nbOf_ge s.cap
    have hbits : bitString s.buf s.cur.toNat = bitString s'.buf s.cur.toNat :=
      bitString_congr fun p hp => bitRead_congr (hread _ (by simp only [State.nb]; omega))
    rw [successReply, successReply, hbits, hcur]
  | _ => rfl

theorem State.Agree.successEffect (h : s.Agree s') (hok : execStatus i s = .ok) :
    (successEffect i s).Agree (successEffect i s') := by
  cases i with
  | create c => exact h.newBuffer c
  | append v w => exact h.appendBits (bv_of_execStatus_ok hok rfl) _ _ v w
  | setbits v a w => exact h.withBuf fun _ ha => read_writeField_congr _ v _ _ ha
  | setbit a b => exact h.withBuf fun _ ha => read_bitWrite_congr _ _ b ha
  | encode n p => exact (h.newBuffer _).appendFields rfl _ _ _
  | _ => exact h

theorem State.Agree.commandEffect (h : s.Agree s') (i : Instr) : (commandEffect i s).Agree (commandEffect i s') := by
  have hst := execStatus_of_agree (i := i) h
  by_cases hok : execStatus i s = .ok
  · rw [commandEffect_of_ok hok, commandEffect_of_ok (hst.symm.trans hok)]
    exact h.successEffect hok
  · rw [commandEffect_of_not_ok hok, commandEffect_of_not_ok (fun e => hok (hst.trans e)), ← hst]
    exact h.outcomeEffect _

theorem commandReply_of_agree (h : s.Agree s') (hs : s.Inv) (i : Instr) : commandReply i s = commandReply i s' := by
  have hst := execStatus_of_agree (i := i) h
  rw [commandReply, commandReply, ← hst]
  split
  next hok => exact successReply_of_agree h hs hok
  next => rfl

theorem State.Agree.wordEffect (h : s.Agree s') (word : Cmd) : (wordEffect word s).Agree (wordEffect word s') := by
  cases hd : decode word with
  | ok i => rw [wordEffect_of_ok s hd, wordEffect_of_ok s' hd]; exact h.commandEffect i
  | error e => rw [wordEffect_of_error s hd, wordEffect_of_error s' hd]; exact h

theorem wordReply_of_agree (h : s.Agree s') (hs : s.Inv) (word : Cmd) : wordReply word s = wordReply word s' := by
  obtain ⟨-, -, hflt, -, -⟩ := id h
  cases hd : decode word with
  | ok i => simp only [wordReply, hd]; exact commandReply_of_agree h hs i
  | error e => simp only [wordReply, hd, wordStatus_of_error hd, hflt]

end

/-- Settles O22: two states that agree take the same event; status, response and effect are read from what they
share. -/
theorem unspecifiedStorageIsUnobservable : Obligations.UnspecifiedStorageIsUnobservable := by
  intro s s' t t' hs _ h ht ht'
  obtain ⟨hinp, -⟩ := id h
  obtain ⟨hi, rfl⟩ | ⟨rest, hi, rfl⟩ | ⟨word, rest, hi, rfl⟩ := step_next_effect ht
  · obtain rfl := next_inj ((step_wait (hinp ▸ hi)).symm.trans ht')
    exact h
  · obtain rfl := next_inj ((step_reset (hinp ▸ hi)).symm.trans ht')
    exact (h.takeEvent rest).resetBlock
  · obtain rfl := next_inj (((step_command (hinp ▸ hi)).trans (runWord_eq ..)).symm.trans ht')
    rw [wordReply_of_agree (h.takeEvent rest) (hs.takeEvent rest)]
    exact ((h.takeEvent rest).wordEffect word).answer _

end Sys2Proof.Machine
end

section
/-! The outcomes by kind (60_exceptions.md R120 to R122, R129) and the builder commands
(40_bitstream_builder.md). -/

namespace Sys2Proof.Machine

open Sys2Proof.Config

/-! ### Outcomes by kind -/

/-- A reported outcome clears BV and changes nothing else. -/
theorem CommandOutcome.eq_dropBuffer {s u : State} {r : Response} (h : CommandOutcome s u r)
    (hr : r.st = .checkDigitMismatch ∨ r.st = .unsupportedSymbology) : s.flt = false ∧ u = s.dropBuffer := by
  cases h with
  | checkDigitMismatch hf | unsupportedSymbology hf => exact ⟨hf, rfl⟩
  | _ => simp at hr

/-- A refusal changes nothing. -/
theorem CommandOutcome.eq_of_refused {s u : State} {r : Response} (h : CommandOutcome s u r)
    (hr : r.st = .illegalCommand ∨ r.st = .noBuffer ∨ r.st = .faulted) : u = s := by
  cases h with
  | illegalCommand | noBuffer | faulted => rfl
  | _ => simp at hr

/-- BOUNDS_FAULT needs a buffer, sets FLT and changes nothing else. -/
theorem CommandOutcome.eq_latchFault {s u : State} {r : Response} (h : CommandOutcome s u r)
    (hr : r.st = .boundsFault) : s.flt = false ∧ s.bv = true ∧ u = s.latchFault := by
  cases h with
  | boundsFault hf hb => exact ⟨hf, hb, rfl⟩
  | _ => cases hr

theorem CommandOutcome.flt_of_ok {s u : State} {r : Response} (h : CommandOutcome s u r) (hr : r.st = .ok) :
    s.flt = false ∧ u.flt = false := by
  cases h with
  | ok hf hu => exact ⟨hf, hu⟩
  | _ => cases hr

/-- Settles O50: each kind of outcome of a command word has its one effect. -/
theorem outcomeKindsFixTheChange : Obligations.OutcomeKindsFixTheChange := by
  intro s t word rest r hi h hr
  obtain ⟨u, r', hrun, ho⟩ := runWord_outcome word (s.takeEvent rest)
  obtain rfl := next_inj (h.symm.trans ((step_command hi).trans hrun))
  have hout : u.out ++ [r'] = s.out ++ [r] := hr
  obtain ⟨hpast, hlast⟩ := List.append_singleton_inj.1 hout
  subst hlast
  refine ⟨ho.flt_of_ok, fun hst => ?_, fun hst => ?_, fun hst => ?_⟩
  · obtain ⟨hf, rfl⟩ := ho.eq_dropBuffer hst
    exact ⟨hf, rfl⟩
  · obtain rfl := ho.eq_of_refused hst
    rfl
  · obtain ⟨hf, hb, rfl⟩ := ho.eq_latchFault hst
    exact ⟨hf, hb, rfl⟩

theorem expected_le (d : Digits) : expected d ≤ 9 := by
  unfold expected; omega

/-- Settles O12: the mismatch's one condition, and its effect. -/
theorem mismatchReportsExpectedDigit : Obligations.MismatchReportsExpectedDigit := by
  refine ⟨rfl, fun n s hf hne => ⟨expected_le _, ?_⟩, fun i s t r h hr hst => ?_, by decide⟩
  · exact exec_of_mismatch (execStatus_eq_mismatch_iff.2 ⟨hf, n, rfl, hne⟩)
  · obtain ⟨hf, n, hi, hne⟩ := execStatus_eq_mismatch_iff.1 ((st_eq_execStatus h hr).symm.trans hst)
    exact ⟨n, hi, hf, hne⟩

/-- Settles O13: the unimplemented variants look at FLT alone, and no other command has their status. -/
theorem unsupportedSymbologyOutcome : Obligations.UnsupportedSymbologyOutcome :=
  ⟨rfl, fun _ _ _ hf => ⟨unlessFaulted_of_ok hf, unlessFaulted_of_ok hf⟩,
   fun _ _ _ _ h hr hst => execStatus_eq_unsupported_iff.1 ((st_eq_execStatus h hr).symm.trans hst)⟩

/-! ### CREATE and the append -/

/-- Settles O24: CREATE's four assignments, and its zero fill read byte by byte. -/
theorem createMakesZeroedBuffer : Obligations.CreateMakesZeroedBuffer := by
  intro c s hf
  refine ⟨_, unlessFaulted_of_ok hf, rfl, rfl, rfl, hf, rfl, rfl, fun a ha => ?_, fun a ha => ?_⟩
  · exact (Memory.read_zeroFill ..).trans (if_pos ha)
  · exact (Memory.read_zeroFill ..).trans (if_neg (Nat.not_lt.2 ha))

theorem skipBefore_wideSkip (w : Nat) : skipBefore wideSkip w = w - 64 := rfl

section append

variable {v : VWord} {w : Half} {s : State}

/-- An APPEND past every test. -/
theorem exec_append (hf : s.flt = false) (hb : s.bv = true) (hfit : s.cur.toNat + w.toNat ≤ s.cap.toNat) :
    exec (.append v w) s = .next ((s.appendBits appendMode wideSkip v w).answer ⟨.ok, 0, []⟩) :=
  (bufferCommand_of_pass hf hb).trans (if_pos ((rangeFits_iff ..).2 hfit))

/-- A bit in the region an APPEND of any width writes, this hardware's parameters given (logs 7, 8). -/
theorem bitRead_appendBits_written {q : Nat} (hlo : s.cur.toNat + (w.toNat - 64) ≤ q)
    (hhi : q < s.cur.toNat + w.toNat) :
    bitRead (s.appendBits appendMode wideSkip v w).buf q = v.getLsbD (s.cur.toNat + w.toNat - 1 - q) := by
  rw [bitRead_appendBits, skipBefore_wideSkip, if_pos (by omega)]
  exact congrArg v.getLsbD (by omega)

theorem bitRead_appendBits_other {q : Nat}
    (hq : q < s.cur.toNat + (w.toNat - 64) ∨ s.cur.toNat + w.toNat ≤ q) :
    bitRead (s.appendBits appendMode wideSkip v w).buf q = bitRead s.buf q := by
  rw [bitRead_appendBits, skipBefore_wideSkip, if_neg (by omega)]

end append

/-- Settles O25: up to 64 bits nothing is passed over. -/
theorem appendLaw : Obligations.AppendLaw := by
  intro v w s hf hb h64 hfit
  refine ⟨_, exec_append hf hb hfit, toNat_cur_add hfit, fun k hk => ?_, fun p hp => ?_, hb, rfl, hf, rfl, rfl⟩
  · refine (bitRead_appendBits_written (by omega) (by omega)).trans (congrArg v.getLsbD ?_)
    omega
  · exact bitRead_appendBits_other (by omega)

/-- Settles O26: the 64 bits of the value stand at the end of the region. -/
theorem wideAppendSkipsLeading : Obligations.WideAppendSkipsLeading := by
  intro v w s hf hb h64 hfit
  refine ⟨_, exec_append hf hb hfit, toNat_cur_add hfit, fun k hk => ?_, fun p hp => ?_, hb, rfl, hf, rfl, rfl⟩
  · refine (bitRead_appendBits_written (by omega) (by omega)).trans (congrArg v.getLsbD ?_)
    omega
  · exact bitRead_appendBits_other hp

theorem bitChar_eq (b : Bool) : bitChar b = if b then 0x31 else 0x30 := by
  cases b <;> rfl

/-- A longer bit string is the shorter one and the characters after it. -/
theorem bitString_add (m : Memory) (a n : Nat) :
    bitString m (a + n) = bitString m a ++ (List.range n).map (fun k => bitChar (bitRead m (a + k))) := by
  simp [bitString, List.range_add]

/-- Settles O36: the old positions keep their bits, and the new ones are the value's. -/
theorem appendExtendsBitString : Obligations.AppendExtendsBitString := by
  intro v w s hf hb h64 hfit
  obtain ⟨t, he, hcur, hnew, hold, -⟩ := appendLaw v w s hf hb h64 hfit
  refine ⟨t, he, ?_⟩
  rw [hcur, bitString_add, bitString_congr (fun p hp => hold p (.inl hp))]
  refine congrArg _ (List.map_congr_left fun k hk => ?_)
  rw [hnew k (List.mem_range.1 hk), bitChar_eq]

section modes

variable (skip : WideSkip) (v : VWord) (w : Half) (s : State) {p : Nat}

/-- In a written position the `or` mode keeps a one that stood there. -/
theorem bitRead_appendBits_orIn (hp : s.cur.toNat + skipBefore skip w.toNat ≤ p ∧
    p < s.cur.toNat + skipBefore skip w.toNat + min w.toNat 64) :
    bitRead (s.appendBits .orIn skip v w).buf p =
      (bitRead (s.appendBits .overwrite skip v w).buf p || bitRead s.buf p) := by
  rw [bitRead_appendBits, bitRead_appendBits, if_pos hp, if_pos hp, writtenBit_orIn, writtenBit_overwrite, Bool.or_comm]

/-- A position that is not written keeps its bit in either mode. -/
theorem bitRead_appendBits_unwritten (mode : AppendMode) (hp : ¬ (s.cur.toNat + skipBefore skip w.toNat ≤ p ∧
    p < s.cur.toNat + skipBefore skip w.toNat + min w.toNat 64)) :
    bitRead (s.appendBits mode skip v w).buf p = bitRead s.buf p := by
  rw [bitRead_appendBits, if_neg hp]

end modes

/-- Settles O37: both modes write the same positions, and a written bit differs by the old one alone. -/
theorem appendModesDifferOnlyOverOnes : Obligations.AppendModesDifferOnlyOverOnes := by
  intro skip v w s p
  have h : _ ∧ _ := ⟨bitRead_appendBits_orIn skip v w s (p := p), fun hp =>
    have hplain := bitRead_appendBits_unwritten skip v w s .overwrite (p := p) hp
    And.intro ((bitRead_appendBits_unwritten skip v w s .orIn hp).trans hplain.symm) hplain⟩
  cases skip <;> exact h

/-! ### Patches -/

/-- Settles O27: a field write within the capacity; wider than 64 the test on the width refuses. -/
theorem setbitsOverwritesRun : Obligations.SetbitsOverwritesRun := by
  refine ⟨fun v a w s hf hb h64 hfit => ?_, fun v a w s hf h64 => ?_⟩
  · have hok : execStatus (.setbits v a w) s = .ok :=
      execStatus_ok hf (decide_eq_true h64) rfl hb (decide_eq_false (Nat.not_lt.2 hfit))
    refine ⟨_, exec_of_ok hok, fun k hk => ?_, fun p hp => ?_, hb, rfl, rfl, hf, rfl, rfl⟩
    · refine (bitRead_writeField ..).trans ((if_pos (by omega)).trans (congrArg v.getLsbD ?_))
      omega
    · exact (bitRead_writeField ..).trans (if_neg (by omega))
  · exact (unlessFaulted_of_ok hf).trans (if_neg (Nat.not_le.2 h64))

/-- Settles O28: one BitWrite below the capacity. -/
theorem setbitWritesOneBit : Obligations.SetbitWritesOneBit := by
  intro a b s hf hb hfit
  have hok : execStatus (.setbit a b) s = .ok := execStatus_ok hf rfl rfl hb (decide_eq_false (Nat.not_lt.2 hfit))
  refine ⟨_, exec_of_ok hok, ?_, fun p hp => ?_, hb, rfl, rfl, hf, rfl, rfl⟩
  · exact (bitRead_bitWrite ..).trans (if_pos rfl)
  · exact (bitRead_bitWrite ..).trans (if_neg hp)

/-- Settles O29: a field of one bit is one BitWrite of the value's low bit. -/
theorem setbitIsSetbitsOfWidthOne : Obligations.SetbitIsSetbitsOfWidthOne := by
  intro a b s
  cases b <;> rfl

/-- A field written twice over, zeros and ones, is a field written once. -/
theorem bitRead_writeField_twice (v : VWord) (p n : Nat) (m : Memory) (q : Nat) :
    bitRead (writeField .overwrite v p n (writeField .overwrite v p n m)) q =
      bitRead (writeField .overwrite v p n m) q := by
  simp only [bitRead_writeField, writtenBit_overwrite]
  split <;> rfl

theorem bitRead_bitWrite_twice (m : Memory) (p : Nat) (b : Bool) (q : Nat) :
    bitRead (bitWrite .overwrite (bitWrite .overwrite m p b) p b) q = bitRead (bitWrite .overwrite m p b) q := by
  simp only [bitRead_bitWrite, writtenBit_overwrite]
  split <;> rfl

theorem commandEffect_of_flt {i : Instr} {s : State} (hf : s.flt = true) : commandEffect i s = s := by
  have hst : execStatus i s = .faulted := execStatus_of_flt hf
  rw [commandEffect, hst]
  rfl

/-- A command that changes nothing changes nothing after its response either. -/
theorem commandEffect_answer_of_eq {i : Instr} {s : State} (h : commandEffect i s = s) (r : Response) :
    commandEffect i (s.answer r) = s.answer r :=
  (commandEffect_withPorts i s s.inp (s.out ++ [r])).trans (congrArg (·.withPorts s.inp (s.out ++ [r])) h)

/-- A patch that succeeds succeeds again. -/
theorem execStatus_patched {i : Instr} (hi : i.mnemonic ∈ ["SETBITS", "SETBIT"]) (s : State) (r : Response) :
    execStatus i ((successEffect i s).answer r) = execStatus i s := by
  cases i with
  | setbits | setbit => rfl
  | _ => simp [Instr.mnemonic] at hi

/-- Settles O33: a patch that succeeded writes the same bits again, and one that did not changes nothing more. -/
theorem patchesAreIdempotent : Obligations.PatchesAreIdempotent := by
  intro i s t u hi ht hu
  obtain rfl := of_exec_next hu
  obtain rfl := of_exec_next ht
  generalize commandReply i s = r
  cases hst : execStatus i s with
  | ok =>
    rw [commandEffect_of_ok hst, commandEffect_of_ok ((execStatus_patched hi s r).trans hst)]
    cases i with
    | setbits v a w => exact ⟨bitRead_writeField_twice v _ _ _, rfl, rfl, rfl, rfl⟩
    | setbit a b => exact ⟨bitRead_bitWrite_twice _ _ b, rfl, rfl, rfl, rfl⟩
    | _ => simp [Instr.mnemonic] at hi
  | checkDigitMismatch =>
    obtain ⟨-, n, rfl, -⟩ := execStatus_eq_mismatch_iff.1 hst
    simp [Instr.mnemonic] at hi
  | unsupportedSymbology =>
    obtain ⟨-, n, p, rfl | rfl⟩ := execStatus_eq_unsupported_iff.1 hst <;> simp [Instr.mnemonic] at hi
  | boundsFault =>
    have heff : commandEffect i s = s.latchFault := by rw [commandEffect, hst]; rfl
    have hagain : commandEffect i (s.latchFault.answer r) = s.latchFault.answer r := commandEffect_of_flt rfl
    rw [heff, hagain]
    exact ⟨fun _ => rfl, rfl, rfl, rfl, rfl⟩
  | illegalCommand | noBuffer | faulted =>
    have heff : commandEffect i s = s := by rw [commandEffect, hst]; rfl
    rw [heff, commandEffect_answer_of_eq heff]
    exact ⟨fun _ => rfl, rfl, rfl, rfl, rfl⟩

/-! ### Read-outs -/

/-- A read-out changes nothing in any of its outcomes. -/
theorem exec_read {i : Instr} (hi : i.mnemonic ∈ ["RAWBYTES", "BITCOUNT", "TOBITSTR"]) (s : State) :
    exec i s = .next (s.answer (commandReply i s)) := by
  have hkeep : ∃ r, exec i s = .next (s.answer r) := by
    cases i with
    | rawbytes => obtain ⟨-, e⟩ | ⟨-, -, e⟩ | ⟨-, -, e⟩ := execRawbytes_cases s <;> exact ⟨_, e⟩
    | bitcount => obtain ⟨-, e⟩ | ⟨-, -, e⟩ | ⟨-, -, e⟩ := execBitcount_cases s <;> exact ⟨_, e⟩
    | tobitstr => obtain ⟨-, e⟩ | ⟨-, -, e⟩ | ⟨-, -, e⟩ := execTobitstr_cases s <;> exact ⟨_, e⟩
    | _ => simp [Instr.mnemonic] at hi
  obtain ⟨r, e⟩ := hkeep
  rwa [← reply_of_exec_next e rfl]

/-- Settles O32: a read-out changes only the responses given, and its answer does not depend on them. -/
theorem readsHaveNoSideEffect : Obligations.ReadsHaveNoSideEffect := by
  intro i s t u r r' hi ht hr hu hr'
  obtain rfl := reply_of_exec_next ht hr
  obtain rfl := reply_of_exec_next hu hr'
  obtain rfl := next_inj (ht.symm.trans (exec_read hi s))
  exact ⟨rfl, commandReply_withPorts i s s.inp _⟩

/-- Settles O30: each bit of the answer is the bit of the buffer, and padding is zero by the invariant. -/
theorem rawbytesReturnsWholeBuffer : Obligations.RawbytesReturnsWholeBuffer := by
  intro s hf hb
  have hbits (p : Nat) (hp : p < 8 * (s.buf.readBytes s.nb).length) :
      ((s.buf.readBytes s.nb).getD (p / 8) 0).getLsbD (7 - p % 8) = bitRead s.buf p := by
    have hlt : p / 8 < (s.buf.readBytes s.nb).length := by omega
    rw [List.getD_eq_getElem _ _ hlt, Memory.getElem_readBytes]
    rfl
  refine ⟨s.buf.readBytes s.nb, bufferCommand_of_pass hf hb, Memory.length_readBytes _ _, hbits, ?_⟩
  intro hinv p hlo hhi
  obtain ⟨-, hpad⟩ := hinv.2 hb
  exact (hbits p hhi).trans (hpad p hlo (by simpa using hhi))

/-- Settles O31: both answer the cursor, and each character is that of the bit at its position. -/
theorem cursorReadOuts : Obligations.CursorReadOuts := by
  intro s hf hb
  refine ⟨bufferCommand_of_pass hf hb, bitString s.buf s.cur.toNat, bufferCommand_of_pass hf hb,
    length_bitString _ _, fun p hp => ?_⟩
  simp [bitString, hp, bitChar_eq]

/-! ### The capacity and the cursor -/

theorem outcomeEffect_cap (st : Status) (s : State) : (outcomeEffect st s).cap = s.cap := by
  cases st <;> rfl

theorem outcomeEffect_cur (st : Status) (s : State) : (outcomeEffect st s).cur = s.cur := by
  cases st <;> rfl

/-- Settles O34: of the successes only CREATE's and ENCODE's set CAP. -/
theorem capacityChangesOnlyWithNewBuffer : Obligations.CapacityChangesOnlyWithNewBuffer := by
  intro i s t h hcap
  obtain rfl := of_exec_next h
  simp only [State.answer_cap, State.answer_bv, State.answer_cur] at hcap ⊢
  by_cases hok : execStatus i s = .ok
  case neg => exact absurd (by rw [commandEffect_of_not_ok hok, outcomeEffect_cap]) hcap
  case pos =>
    rw [commandEffect_of_ok hok] at hcap ⊢
    cases i with
    | create c => exact ⟨⟨rfl, Nat.zero_le _⟩, .inl rfl⟩
    | encode n p => simp [successEffect]
    | _ => exact absurd rfl hcap

/-- Settles O35: of the successes that keep the buffer only APPEND's moves the cursor. -/
theorem cursorMovesOnlyByAppend : Obligations.CursorMovesOnlyByAppend := by
  intro i s t hr h
  obtain rfl := of_exec_next h
  simp only [State.answer_cur]
  by_cases hok : execStatus i s = .ok
  case neg => simp [commandEffect_of_not_ok hok, outcomeEffect_cur]
  case pos =>
    rw [commandEffect_of_ok hok]
    cases i with
    | append v w =>
      have hcur : (successEffect (.append v w) s).cur.toNat = s.cur.toNat + w.toNat :=
        toNat_cur_add (append_fits_of_ok hok)
      exact ⟨by omega, fun _ => ⟨v, w, rfl, hcur⟩⟩
    | setbits | setbit | rawbytes | bitcount | tobitstr => exact ⟨le_rfl, fun hne => absurd rfl hne⟩
    | _ => cases hr

end Sys2Proof.Machine
end

section
/-! Digits, checksum, expected digit and display digits (41_symbol_encoder.md R81 to R84, R92). -/

namespace Sys2Proof.Machine

open Sys2Proof.Config

/-! ### Digits -/

/-- `k` rounds of R81's loop find the `k` low decimal digits, most significant first. -/
theorem digitsLoop_eq (k t : Nat) (found : Digits) :
    digitsLoop k t found = (List.range k).map (fun i => t / 10 ^ (k - 1 - i) % 10) ++ found := by
  induction k generalizing t found with
  | zero => rfl
  | succ k ih =>
    have hquot : (List.range k).map (fun i => t / 10 / 10 ^ (k - 1 - i) % 10) =
        (List.range k).map (fun i => t / 10 ^ (k - i) % 10) := by
      refine List.map_congr_left fun i hi => ?_
      have hlt := List.mem_range.1 hi
      rw [Nat.div_div_eq_div_mul, ← Nat.pow_succ', show (k - 1 - i).succ = k - i by omega]
    rw [digitsLoop, ih, hquot, List.range_succ, List.map_append, List.append_assoc]
    simp

theorem digits_eq (n : Nat) : digits n = (List.range 13).map (fun i => n / 10 ^ (12 - i) % 10) :=
  (digitsLoop_eq 13 n []).trans (List.append_nil _)

theorem digit_digits (n : Nat) {i : Nat} (hi : i < 13) : digit (digits n) i = n / 10 ^ (12 - i) % 10 := by
  simp [digit, digits_eq, hi]

theorem isDigits_digits (n : Nat) : IsDigits (digits n) := by
  refine ⟨length_digits n, fun x hx => ?_⟩
  rw [digits_eq, List.mem_map] at hx
  obtain ⟨i, -, rfl⟩ := hx
  exact Nat.mod_lt _ (by decide)

/-- Decimal digits below the thirteenth do not see what lies above it. -/
theorem digits_mod (n : Nat) : digits (n % 10 ^ 13) = digits n := by
  rw [digits_eq, digits_eq]
  refine List.map_congr_left fun i hi => ?_
  have hlt := List.mem_range.1 hi
  have hsplit : 10 ^ 13 = 10 ^ (12 - i) * 10 ^ (i + 1) := by rw [← Nat.pow_add]; congr 1; omega
  rw [hsplit, Nat.mod_mul_right_div_self, Nat.mod_mod_of_dvd _ (dvd_pow_self 10 (by omega))]

/-- Settles O38: the loop's digits by place value, and the thirteen low places by the remainder alone. -/
theorem digitsAreTheDecimalDigits : Obligations.DigitsAreTheDecimalDigits :=
  fun n => ⟨isDigits_digits n, fun _ hi => digit_digits n hi, (digits_mod n).symm⟩

/-- Settles O48: ENCODE looks at its number only through the digits. -/
theorem longNumbersAreCut : Obligations.LongNumbersAreCut := by
  intro n p s
  have hd : digits (n % 10000000000000).toNat = digits n.toNat := by
    rw [BitVec.toNat_umod]
    exact digits_mod n.toNat
  simp only [exec, execEncode, hd]

/-! ### The expected digit -/

section expected

variable {d : Digits}

theorem digit_withCheckDigit_other (d : Digits) (x : Nat) {i : Nat} (hi : i ≠ 12) :
    digit (withCheckDigit d x) i = digit d i := by
  simp [digit, withCheckDigit, List.getD_eq_getElem?_getD, List.getElem?_set_ne hi.symm]

theorem digit_withCheckDigit_same (hd : IsDigits d) (x : Nat) : digit (withCheckDigit d x) 12 = x := by
  obtain ⟨hlen, -⟩ := hd
  simp [digit, withCheckDigit, List.getD_eq_getElem?_getD, hlen]

/-- The check digit has weight 1. -/
theorem weightedSum_withCheckDigit (hd : IsDigits d) (x : Nat) :
    weightedSum (withCheckDigit d x) + digit d 12 = weightedSum d + x := by
  rw [weightedSum_eq, weightedSum_eq]
  simp (disch := decide) only [digit_withCheckDigit_same hd, digit_withCheckDigit_other]
  omega

theorem digit_check_le_weightedSum (d : Digits) : digit d 12 ≤ weightedSum d := by
  rw [weightedSum_eq]; omega

/-- The expected digit over the natural numbers: what is missing to the next ten when the check digit is left out. -/
theorem expected_eq (d : Digits) : expected d = (10 - (weightedSum d - digit d 12) % 10) % 10 := by
  have hle := digit_check_le_weightedSum d
  unfold expected checksum
  omega

/-- A check digit makes the checksum 0 exactly if it is the expected one. -/
theorem checksum_withCheckDigit_iff (hd : IsDigits d) {x : Nat} (hx : x ≤ 9) :
    checksum (withCheckDigit d x) = 0 ↔ x = expected d := by
  have hsum := weightedSum_withCheckDigit hd x
  have hle := digit_check_le_weightedSum d
  rw [expected_eq]
  unfold checksum
  omega

/-- The expected digit does not depend on the check digit. -/
theorem expected_withCheckDigit (hd : IsDigits d) (x : Nat) : expected (withCheckDigit d x) = expected d := by
  have hsum := weightedSum_withCheckDigit hd x
  have hle := digit_check_le_weightedSum d
  rw [expected_eq, expected_eq, digit_withCheckDigit_same hd]
  omega

end expected

/-- Settles O40: arithmetic modulo ten, the check digit having weight 1. -/
theorem expectedDigitIsTheUniqueRepair : Obligations.ExpectedDigitIsTheUniqueRepair := by
  intro d hd
  have h12 := hd.digit_le 12
  have hchk := checksum_le d
  refine ⟨by omega, by omega, ?_, expected_le d, fun x hx => checksum_withCheckDigit_iff hd hx, fun h0 => ?_,
    fun x _ => expected_withCheckDigit hd x⟩
  · exact Int.toNat_of_nonneg (Int.emod_nonneg _ (by decide))
  · unfold expected; omega

/-! ### Display digits -/

/-- Settles O41: the leading digit is the head of the list. -/
theorem displayDropsOneLeadingZero : Obligations.DisplayDropsOneLeadingZero := by
  rintro d ⟨hlen, -⟩
  refine ⟨fun h0 => ?_, fun h0 => ?_⟩
  · rw [display, if_pos h0]
    cases d with
    | nil => cases hlen
    | cons x xs =>
      obtain rfl : x = 0 := h0
      exact ⟨rfl, Nat.succ.inj hlen⟩
  · exact ⟨if_neg h0, by rw [display, if_neg h0, hlen]⟩

end Sys2Proof.Machine
end

section
/-! The pattern bit by bit, and what ENCODE leaves of it in the buffer (41_symbol_encoder.md R85 to R96). -/

namespace Sys2Proof.Machine

open Sys2Proof.Config

/-! ### The layout of the pattern -/

theorem length_fieldBits (f : PatternField) : (fieldBits f).length = f.width.toNat := by simp [fieldBits]

theorem getD_fieldBits (f : PatternField) {k : Nat} (hk : k < f.width.toNat) :
    (fieldBits f).getD k false = f.value.getLsbD (f.width.toNat - 1 - k) := by
  simp [fieldBits, hk]

theorem length_flatMap_fieldBits (fs : List PatternField) : (fs.flatMap fieldBits).length = totalWidth fs := by
  simp [List.length_flatMap, length_fieldBits, totalWidth]

/-- The bits of a list of fields: field `i` starts after the widths of those before it. -/
theorem getD_flatMap_fieldBits {fs : List PatternField} {i : Nat} {f : PatternField} (hf : fs[i]? = some f) {k : Nat}
    (hk : k < f.width.toNat) :
    (fs.flatMap fieldBits).getD (totalWidth (fs.take i) + k) false = f.value.getLsbD (f.width.toNat - 1 - k) := by
  induction fs generalizing i with
  | nil => simp at hf
  | cons g fs ih =>
    rw [List.flatMap_cons]
    cases i with
    | zero =>
      obtain rfl : g = f := by simpa using hf
      have hstart : totalWidth ((g :: fs).take 0) + k = k := by simp [totalWidth]
      rw [hstart, List.getD_append _ _ _ _ (by rwa [length_fieldBits]), getD_fieldBits g hk]
    | succ i =>
      have hstart : totalWidth ((g :: fs).take (i + 1)) = g.width.toNat + totalWidth (fs.take i) := by
        simp [totalWidth]
      rw [hstart, List.getD_append_right _ _ _ _ (by rw [length_fieldBits]; omega), length_fieldBits, ← ih hf]
      congr 1
      omega

section layout

variable (T : Tables) (d : Digits)

theorem length_pattern : (pattern T d).length = 113 :=
  (length_flatMap_fieldBits _).trans (totalWidth_patternFields T d)

/-- The widths of the seventeen fields (R90). -/
def patternWidths : List Nat := [9, 3, 7, 7, 7, 7, 7, 7, 5, 7, 7, 7, 7, 7, 7, 3, 9]

theorem totalWidth_take_patternFields (i : Nat) :
    totalWidth ((patternFields T d).take i) = (patternWidths.take i).sum := by
  rw [totalWidth, List.map_take]
  rfl

variable {T d}

/-- Field `i` of the pattern, `start` the widths of those before it. -/
theorem getD_pattern (i start : Nat) {f : PatternField} {k : Nat} (hk : k < f.width.toNat)
    (hf : (patternFields T d)[i]? = some f := by rfl)
    (hstart : (patternWidths.take i).sum = start := by decide) :
    (pattern T d).getD (start + k) false = f.value.getLsbD (f.width.toNat - 1 - k) :=
  ((totalWidth_take_patternFields T d i).trans hstart) ▸ getD_flatMap_fieldBits hf hk

theorem getLsbD_digitBars (x : BitVec 7) {k : Nat} (hk : k < 7) :
    (digitBars x).value.getLsbD ((digitBars x).width.toNat - 1 - k) = x.getLsbD (6 - k) := by
  have hlt : 6 - k < 64 := by omega
  simp [digitBars, hlt]

/-- The seven bits of left digit `j` (R85, R89). -/
theorem getD_pattern_left {j k : Nat} (h1 : 1 ≤ j) (h6 : j ≤ 6) (hk : k < 7) :
    (pattern T d).getD (12 + 7 * (j - 1) + k) false = (leftPat T d j).getLsbD (6 - k) := by
  have hf : (patternFields T d)[j + 1]? = some (digitBars (leftPat T d j)) := by interval_cases j <;> rfl
  have hstart : (patternWidths.take (j + 1)).sum = 12 + 7 * (j - 1) := by interval_cases j <;> decide
  exact (getD_pattern _ _ hk hf hstart).trans (getLsbD_digitBars _ hk)

/-- The seven bits of right digit `j` (R85, R89). -/
theorem getD_pattern_right {j k : Nat} (h7 : 7 ≤ j) (h12 : j ≤ 12) (hk : k < 7) :
    (pattern T d).getD (59 + 7 * (j - 7) + k) false = (rightPat T d j).getLsbD (6 - k) := by
  have hf : (patternFields T d)[j + 2]? = some (digitBars (rightPat T d j)) := by interval_cases j <;> rfl
  have hstart : (patternWidths.take (j + 2)).sum = 59 + 7 * (j - 7) := by interval_cases j <;> decide
  exact (getD_pattern _ _ hk hf hstart).trans (getLsbD_digitBars _ hk)

/-- The two quiet zones (R88). -/
theorem getD_pattern_quiet {p : Nat} (hp : p ≤ 8 ∨ 104 ≤ p ∧ p ≤ 112) : (pattern T d).getD p false = false := by
  obtain hp | ⟨hlo, hhi⟩ := hp
  · have h := getD_pattern (T := T) (d := d) 0 0 (f := quietZone) (k := p) (Nat.lt_succ_of_le hp)
    rw [Nat.zero_add] at h
    exact h.trans BitVec.getLsbD_zero
  · have h := getD_pattern (T := T) (d := d) 16 104 (f := quietZone) (k := p - 104)
      (by change _ < 9; omega)
    rw [Nat.add_sub_cancel' hlo] at h
    exact h.trans BitVec.getLsbD_zero

theorem getD_pattern_start {k : Nat} (hk : k < 3) :
    (pattern T d).getD (9 + k) false = guardBars.value.getLsbD (2 - k) :=
  getD_pattern 1 9 hk

theorem getD_pattern_center {k : Nat} (hk : k < 5) :
    (pattern T d).getD (54 + k) false = centerBars.value.getLsbD (4 - k) :=
  getD_pattern 8 54 hk

theorem getD_pattern_end {k : Nat} (hk : k < 3) :
    (pattern T d).getD (101 + k) false = guardBars.value.getLsbD (2 - k) :=
  getD_pattern 15 101 hk

end layout

/-- Settles O44: each field stands after the widths of those before it. -/
theorem patternLayout : Obligations.PatternLayout := fun T d =>
  ⟨length_pattern T d, fun _ hp => getD_pattern_quiet (.inl hp),
    getD_pattern_start (k := 0) (by decide), getD_pattern_start (k := 1) (by decide),
    getD_pattern_start (k := 2) (by decide),
    fun _ _ h1 h6 hk => getD_pattern_left h1 h6 hk,
    getD_pattern_center (k := 0) (by decide), getD_pattern_center (k := 1) (by decide),
    getD_pattern_center (k := 2) (by decide), getD_pattern_center (k := 3) (by decide),
    getD_pattern_center (k := 4) (by decide),
    fun _ _ h7 h12 hk => getD_pattern_right h7 h12 hk,
    getD_pattern_end (k := 0) (by decide), getD_pattern_end (k := 1) (by decide),
    getD_pattern_end (k := 2) (by decide),
    fun _ hlo hhi => getD_pattern_quiet (.inr ⟨hlo, hhi⟩)⟩

/-! ### The tables -/

/-- Settles O52: entry by entry. -/
theorem tablesHoldThePrintedValues : Obligations.TablesHoldThePrintedValues := by
  refine ⟨?_, ?_, ?_, ?_, ?_⟩ <;> decide

/-- A left digit's entry: of the G table or the L table (R85). -/
def leftEntry (g : Bool) (x : Nat) : BitVec 7 :=
  if g = true then tableEntry tables.gtab x else tableEntry tables.ltab x

theorem leftPat_tables (d : Digits) (j : Nat) :
    leftPat tables d j = leftEntry (parity tables (digit d 0) (j - 1)) (digit d j) := rfl

/-- The twenty left entries are pairwise different. -/
theorem leftEntry_inj : ∀ g g' : Bool, ∀ x < 10, ∀ y < 10, leftEntry g x = leftEntry g' y → g = g' ∧ x = y := by
  decide

theorem rightEntry_inj : ∀ x < 10, ∀ y < 10, tableEntry tables.rtab x = tableEntry tables.rtab y → x = y := by
  decide

/-- The ten parity rows are pairwise different. -/
theorem parity_inj : ∀ x < 10, ∀ y < 10, (∀ k < 6, parity tables x k = parity tables y k) → x = y := by
  decide

/-- Every left entry begins with a zero. -/
theorem leftEntry_first : ∀ g : Bool, ∀ x < 10, (leftEntry g x).getLsbD 6 = false := by
  decide

section determines

variable {d d' : Digits}

theorem eq_of_getLsbD_rev {x y : BitVec 7} (h : ∀ k < 7, x.getLsbD (6 - k) = y.getLsbD (6 - k)) : x = y :=
  BitVec.eq_of_getLsbD_eq fun i hi => by
    have hk := h (6 - i) (by omega)
    rwa [show 6 - (6 - i) = i by omega] at hk

theorem leftPat_eq_of_pattern_eq {T : Tables} (h : pattern T d = pattern T d') {j : Nat} (h1 : 1 ≤ j) (h6 : j ≤ 6) :
    leftPat T d j = leftPat T d' j :=
  eq_of_getLsbD_rev fun k hk => by rw [← getD_pattern_left h1 h6 hk, ← getD_pattern_left h1 h6 hk, h]

theorem rightPat_eq_of_pattern_eq {T : Tables} (h : pattern T d = pattern T d') {j : Nat} (h7 : 7 ≤ j)
    (h12 : j ≤ 12) : rightPat T d j = rightPat T d' j :=
  eq_of_getLsbD_rev fun k hk => by rw [← getD_pattern_right h7 h12 hk, ← getD_pattern_right h7 h12 hk, h]

theorem IsDigits.digit_lt (hd : IsDigits d) (i : Nat) : digit d i < 10 := Nat.lt_succ_of_le (hd.digit_le i)

/-- A digit sequence is determined by its thirteen digits. -/
theorem IsDigits.ext (hd : IsDigits d) (hd' : IsDigits d') (h : ∀ i < 13, digit d i = digit d' i) : d = d' := by
  obtain ⟨hlen, -⟩ := hd
  obtain ⟨hlen', -⟩ := hd'
  refine List.ext_getElem (hlen.trans hlen'.symm) fun i hi hi' => ?_
  have hdigit := h i (hlen ▸ hi)
  rwa [digit, digit, List.getD_eq_getElem _ _ hi, List.getD_eq_getElem _ _ hi'] at hdigit

end determines

/-- Settles O54: a left entry gives its digit and its parity, the parities the leading digit. -/
theorem patternDeterminesDigits : Obligations.PatternDeterminesDigits := by
  intro d d' hd hd' h
  have hleft (j : Nat) (h1 : 1 ≤ j) (h6 : j ≤ 6) :
      parity tables (digit d 0) (j - 1) = parity tables (digit d' 0) (j - 1) ∧ digit d j = digit d' j := by
    have hentry := leftPat_eq_of_pattern_eq h h1 h6
    rw [leftPat_tables, leftPat_tables] at hentry
    exact leftEntry_inj _ _ _ (hd.digit_lt j) _ (hd'.digit_lt j) hentry
  refine hd.ext hd' fun i hi => ?_
  obtain rfl | hpos := Nat.eq_zero_or_pos i
  · exact parity_inj _ (hd.digit_lt 0) _ (hd'.digit_lt 0) fun k hk => (hleft (k + 1) (by omega) (by omega)).1
  · by_cases h6 : i ≤ 6
    · exact (hleft i hpos h6).2
    · exact rightEntry_inj _ (hd.digit_lt i) _ (hd'.digit_lt i)
        (rightPat_eq_of_pattern_eq h (by omega) (by omega))

end Sys2Proof.Machine
end

section
/-! The ENCODE commands (41_symbol_encoder.md R80 to R96). -/

namespace Sys2Proof.Machine

open Sys2Proof.Config

/-! ### A successful ENCODE -/

/-- The buffer that a successful ENCODE of the number leaves, with this hardware's parameters. -/
def encoded (n : VWord) (s : State) : State := s.encodeBuffer appendMode wideSkip tables (digits n.toNat)

section encoded

variable (n : VWord) (s : State)

@[simp] theorem encoded_bv : (encoded n s).bv = true := encodeBuffer_bv ..
@[simp] theorem encoded_cap : (encoded n s).cap = 113 := encodeBuffer_cap ..
@[simp] theorem encoded_cur : (encoded n s).cur = 113 := encodeBuffer_cur ..
@[simp] theorem encoded_flt : (encoded n s).flt = s.flt := encodeBuffer_flt ..
@[simp] theorem encoded_inp : (encoded n s).inp = s.inp := encodeBuffer_inp ..
@[simp] theorem encoded_nb : (encoded n s).nb = 15 := nb_encodeBuffer ..
@[simp] theorem encoded_out : (encoded n s).out = s.out := encodeBuffer_out ..

theorem bitRead_encoded (p : Nat) : bitRead (encoded n s).buf p =
    if p < 113 then (pattern tables (digits n.toNat)).getD p false else if p < 120 then false else bitRead s.buf p :=
  bitRead_encodeBuffer ..

/-- The fifteen bytes hold nothing of what was there before. -/
theorem read_encoded_eq (s' : State) {a : Nat} (ha : a < 15) :
    (encoded n s).buf.read a = (encoded n s').buf.read a :=
  read_eq_of_bitRead fun p hp => by
    have h120 : p < 120 := by omega
    rw [bitRead_encoded, bitRead_encoded, if_pos h120, if_pos h120]

/-- Storage from byte 15 on is out of ENCODE's reach. -/
theorem read_encoded_other {a : Nat} (ha : 15 ≤ a) : (encoded n s).buf.read a = s.buf.read a :=
  read_eq_of_bitRead fun p hp => by rw [bitRead_encoded, if_neg (by omega), if_neg (by omega)]

end encoded

@[simp] theorem State.answer_nb (s : State) (r : Response) : (s.answer r).nb = s.nb := (rfl)

/-- What a successful ENCODE answers (R93). -/
def encodeReply (n : VWord) : Response := ⟨.ok, 113, displayBytes (digits n.toNat)⟩

section

variable {n : VWord} {p : Policy} {s : State}

/-- An ENCODE past every test. -/
theorem exec_encode (hf : s.flt = false) (h : p = .ignore ∨ checksum (digits n.toNat) = 0) :
    exec (.encode n p) s = .next ((encoded n s).answer (encodeReply n)) := by
  refine (unlessFaulted_of_ok hf).trans (if_neg ?_)
  rintro ⟨rfl, hne⟩
  exact hne (h.resolve_left nofun)

theorem exec_encode_mismatch (hf : s.flt = false) (hne : checksum (digits n.toNat) ≠ 0) :
    exec (.encode n .validate) s = .next
      (s.dropBuffer.answer ⟨.checkDigitMismatch, BitVec.ofNat 16 (expected (digits n.toNat)), []⟩) :=
  exec_of_mismatch (execStatus_eq_mismatch_iff.2 ⟨hf, n, rfl, hne⟩)

end

/-- From an unfaulted block ENCODE either mismatches or succeeds. -/
theorem encode_mismatches_or_succeeds (n : VWord) (p : Policy) :
    (p = .validate ∧ checksum (digits n.toNat) ≠ 0) ∨ (p = .ignore ∨ checksum (digits n.toNat) = 0) := by
  cases p with
  | ignore => exact .inr (.inl rfl)
  | validate =>
    by_cases h0 : checksum (digits n.toNat) = 0
    · exact .inr (.inr h0)
    · exact .inl ⟨rfl, h0⟩

/-- Settles O42: the fields of the encoded buffer, and the storage that is left alone. -/
theorem encodeSucceeds : Obligations.EncodeSucceeds := by
  intro n p s hf hp
  refine ⟨_, exec_encode hf hp, ?_⟩
  simp only [State.answer_bv, State.answer_cap, State.answer_cur, State.answer_flt, State.answer_inp, State.answer_out,
    State.answer_buf, encoded_bv, encoded_cap, encoded_cur, encoded_flt, encoded_inp, encoded_out, true_and]
  exact ⟨hf, rfl, fun _ ha => read_encoded_other n s ha⟩

/-- Settles O46: the bits are the pattern's, whatever the parameters. -/
theorem encodeIndependentOfOpenModes : Obligations.EncodeIndependentOfOpenModes := fun T d mode skip s =>
  ⟨fun p => (bitRead_encodeBuffer mode skip T d s p).trans (bitRead_encodeBuffer .overwrite .leading T d s p).symm,
    encodeBuffer_cur mode skip T d s, encodeBuffer_cap mode skip T d s⟩

/-! ### Its bytes -/

/-- Bit `j` of byte `a`, as a position. -/
theorem getLsbD_read (m : Memory) (a : Nat) {j : Nat} (hj : j < 8) :
    (m.read a).getLsbD j = bitRead m (8 * a + (7 - j)) := by
  unfold bitRead
  rw [show (8 * a + (7 - j)) / 8 = a by omega, show 7 - (8 * a + (7 - j)) % 8 = j by omega]

/-- A byte whose eight positions are zero. -/
theorem read_eq_zero {m : Memory} {a : Nat} (h : ∀ p, 8 * a ≤ p → p < 8 * a + 8 → bitRead m p = false) :
    m.read a = 0 :=
  BitVec.eq_of_getLsbD_eq fun j hj => by
    rw [getLsbD_read m a hj, h _ (by omega) (by omega)]
    exact BitVec.getLsbD_zero.symm

section bytes

variable (n : VWord) (s : State)

theorem bitRead_encoded_pattern {p : Nat} (hp : p < 113) :
    bitRead (encoded n s).buf p = (pattern tables (digits n.toNat)).getD p false :=
  (bitRead_encoded n s p).trans (if_pos hp)

theorem bitRead_encoded_padding {p : Nat} (hlo : 113 ≤ p) (hhi : p < 120) : bitRead (encoded n s).buf p = false :=
  (bitRead_encoded n s p).trans ((if_neg (Nat.not_lt.2 hlo)).trans (if_pos hhi))

/-- The quiet zones and the padding are zero. -/
theorem bitRead_encoded_zero {p : Nat} (hp : p ≤ 8 ∨ 104 ≤ p ∧ p < 120) : bitRead (encoded n s).buf p = false := by
  by_cases h : p < 113
  · rw [bitRead_encoded_pattern n s h]
    exact getD_pattern_quiet (by omega)
  · exact bitRead_encoded_padding n s (by omega) (by omega)

/-- The pattern and its padding, as one list of 120 bits. -/
theorem bitRead_encoded_padded {p : Nat} (hp : p < 120) : bitRead (encoded n s).buf p =
    (pattern tables (digits n.toNat) ++ List.replicate 7 false).getD p false := by
  have hlen := length_pattern tables (digits n.toNat)
  by_cases h : p < 113
  · rw [bitRead_encoded_pattern n s h, List.getD_append _ _ _ _ (by omega)]
  · rw [bitRead_encoded_padding n s (by omega) hp, List.getD_append_right _ _ _ _ (by omega),
      List.getD_replicate _ (by omega)]

/-- The first bar of every left digit is a zero (R91's form of byte 1). -/
theorem getD_pattern_first_left : (pattern tables (digits n.toNat)).getD 12 false = false := by
  refine (getD_pattern_left (j := 1) (k := 0) (by decide) (by decide) (by decide)).trans ?_
  rw [leftPat_tables]
  exact leftEntry_first _ _ ((isDigits_digits _).digit_lt 1)

/-- Byte 1: the last of the quiet zone, the start guard, and a zero. -/
theorem encoded_byte1 : ((encoded n s).buf.read 1).extractLsb' 3 5 = 0b01010 :=
  BitVec.eq_of_getLsbD_eq fun i hi => by
    rw [BitVec.getLsbD_extractLsb', getLsbD_read _ _ (by omega), bitRead_encoded_pattern n s (by omega)]
    interval_cases i
    · exact getD_pattern_first_left n
    · exact getD_pattern_start (k := 2) (by decide)
    · exact getD_pattern_start (k := 1) (by decide)
    · exact getD_pattern_start (k := 0) (by decide)
    · exact getD_pattern_quiet (p := 8) (by decide)

/-- Byte 12: the end guard in its low bits. -/
theorem encoded_byte12 : ((encoded n s).buf.read 12).extractLsb' 0 3 = 0b101 :=
  BitVec.eq_of_getLsbD_eq fun i hi => by
    rw [BitVec.getLsbD_extractLsb', getLsbD_read _ _ (by omega), bitRead_encoded_pattern n s (by omega)]
    interval_cases i
    · exact getD_pattern_end (k := 2) (by decide)
    · exact getD_pattern_end (k := 1) (by decide)
    · exact getD_pattern_end (k := 0) (by decide)

end bytes

/-- Settles O43: the buffer's bits are the pattern's, so its bytes are read off the layout. -/
theorem encodeWritesPattern : Obligations.EncodeWritesPattern := by
  intro n p s t hf hp h
  obtain rfl := next_inj ((exec_encode hf hp).symm.trans h)
  have hzero (a : Nat) (ha : a = 0 ∨ a = 13 ∨ a = 14) : (encoded n s).buf.read a = 0 :=
    read_eq_zero fun p hlo hhi => bitRead_encoded_zero n s (by omega)
  rw [State.answer_buf]
  refine ⟨length_pattern _ _, fun p hp => bitRead_encoded_pattern n s hp,
    fun p hlo hhi => bitRead_encoded_padding n s hlo hhi, fun i j hi hj => ?_,
    hzero 0 (by decide), encoded_byte1 n s, encoded_byte12 n s, hzero 13 (by decide), hzero 14 (by decide)⟩
  refine (getLsbD_read _ i (by omega)).trans ?_
  rw [show 7 - (7 - j) = j by omega]
  exact bitRead_encoded_padded n s (by omega)

/-- The bytes of a number's pattern, its bits and the padding's packed eight to a byte, the first most significant. -/
def IsPacked (n : VWord) (bytes : List Byte) : Prop :=
  ∀ a < 15, ∀ j < 8, (bytes.getD a 0).getLsbD (7 - j) =
    (pattern tables (digits n.toNat) ++ List.replicate 7 false).getD (8 * a + j) false

theorem readBytes_encoded {n : VWord} {bytes : List Byte} (s : State) (hlen : bytes.length = 15)
    (h : IsPacked n bytes) : (encoded n s).buf.readBytes 15 = bytes := by
  refine List.ext_getElem (by simp [hlen]) fun a _ ha => ?_
  rw [Memory.getElem_readBytes, ← List.getD_eq_getElem _ 0 ha]
  refine BitVec.eq_of_getLsbD_eq fun j hj => ?_
  have hbit := h a (by omega) (7 - j) (by omega)
  rw [show 7 - (7 - j) = j by omega] at hbit
  rw [getLsbD_read _ a hj, bitRead_encoded_padded n s (by omega), hbit]

/-- The line of vector E1. -/
theorem isPacked_E1 : IsPacked 4006381333931
    [0x00, 0x51, 0xA9, 0xD7, 0xBD, 0x12, 0xCD, 0x50, 0xA1, 0x42, 0xE9, 0x0B, 0x35, 0x00, 0x00] := by
  unfold IsPacked; decide

/-- The line of vector E5. -/
theorem isPacked_E5 : IsPacked 1234567890128
    [0x00, 0x52, 0x6F, 0x4E, 0xB1, 0x0A, 0x45, 0x52, 0x3A, 0x72, 0xCD, 0xB2, 0x45, 0x00, 0x00] := by
  unfold IsPacked; decide

/-- Settles O53: from every state the bytes are the packed pattern, which is computed. -/
theorem encodeVectorBytes : Obligations.EncodeVectorBytes := by
  intro s hf
  have h1 : checksum (digits (4006381333931 : VWord).toNat) = 0 := by decide
  have h5 : checksum (digits (1234567890128 : VWord).toNat) = 0 := by decide
  refine ⟨⟨_, exec_encode hf (.inr h1), ?_⟩, ⟨_, exec_encode hf (.inr h5), ?_⟩⟩
  · rw [State.answer_buf]
    exact readBytes_encoded s rfl isPacked_E1
  · rw [State.answer_buf]
    exact readBytes_encoded s rfl isPacked_E5

/-! ### ENCODE as a sequence of builder commands -/

/-- The APPEND of a field. -/
def PatternField.toAppend (f : PatternField) : Instr := .append f.value f.width

theorem answer_eq_withPorts (s : State) (r : Response) : s.answer r = s.withPorts s.inp (s.out ++ [r]) := rfl

theorem appendFields_cons (mode : AppendMode) (skip : WideSkip) (f : PatternField) (fs : List PatternField)
    (s : State) : appendFields mode skip (f :: fs) s =
      appendFields mode skip fs (s.appendBits mode skip f.value f.width) := rfl

/-- Appends that fit are executed one after another, each answered OK. -/
theorem execAll_toAppend {fs : List PatternField} {s : State} (hf : s.flt = false) (hb : s.bv = true)
    (hfit : s.cur.toNat + totalWidth fs ≤ s.cap.toNat) :
    execAll (fs.map PatternField.toAppend) s = .next
      ((appendFields appendMode wideSkip fs s).withPorts s.inp (s.out ++ List.replicate fs.length ⟨.ok, 0, []⟩)) := by
  induction fs generalizing s with
  | nil => simp [execAll, appendFields, State.withPorts]
  | cons f fs ih =>
    have hw : totalWidth (f :: fs) = f.width.toNat + totalWidth fs := rfl
    have hfit1 : s.cur.toNat + f.width.toNat ≤ s.cap.toNat := by omega
    have hcur := toNat_cur_add hfit1
    have hrest := ih (s := (s.appendBits appendMode wideSkip f.value f.width).answer ⟨.ok, 0, []⟩) hf hb
      (by simp only [State.answer_cur, State.answer_cap, State.appendBits_cur, State.appendBits_cap]; omega)
    rw [List.map_cons, PatternField.toAppend, execAll, exec_append hf hb hfit1]
    refine hrest.trans (congrArg Host.Outcome.next ?_)
    simp only [answer_eq_withPorts, appendFields_withPorts, withPorts_withPorts, withPorts_inp, withPorts_out,
      State.appendBits_inp, State.appendBits_out, List.length_cons, List.replicate_succ, List.append_assoc,
      List.singleton_append, appendFields_cons]

/-- CREATE and the seventeen appends of R90 leave the encoded buffer, each answered OK. -/
theorem execAll_create_appends (n : VWord) {s : State} (hf : s.flt = false) :
    execAll (.create 113 :: (patternFields tables (digits n.toNat)).map PatternField.toAppend) s = .next
      ((encoded n s).withPorts s.inp (s.out ++ List.replicate 18 ⟨.ok, 0, []⟩)) := by
  have hcreate : exec (.create 113) s = .next ((s.newBuffer 113).answer ⟨.ok, 0, []⟩) := unlessFaulted_of_ok hf
  have hrest := execAll_toAppend (fs := patternFields tables (digits n.toNat))
    (s := (s.newBuffer 113).answer ⟨.ok, 0, []⟩) hf rfl (by rw [totalWidth_patternFields]; exact Nat.le_refl 113)
  rw [execAll, hcreate]
  refine hrest.trans (congrArg Host.Outcome.next ?_)
  simp only [answer_eq_withPorts, appendFields_withPorts, withPorts_withPorts, withPorts_inp, withPorts_out,
    State.newBuffer_inp, State.newBuffer_out, List.append_assoc, encoded, encodeBuffer_eq]
  rfl

/-- Settles O45: by induction on the fields, the appends executed are the appends of the encoded buffer. -/
theorem encodeIsCreateAndAppends : Obligations.EncodeIsCreateAndAppends := by
  intro n p s hf hp
  refine ⟨_, _, exec_encode hf hp, execAll_create_appends n hf, ?_⟩
  simp only [State.answer_bv, State.answer_cap, State.answer_cur, State.answer_buf, State.answer_flt, State.answer_inp,
    withPorts_bv, withPorts_cap, withPorts_cur, withPorts_buf, withPorts_flt, withPorts_inp, withPorts_out, encoded_inp,
    and_self]

/-! ### The laws -/

section laws

variable {n : VWord} {p : Policy} {s s' t t' : State} {r : Response}

/-- The successful answer is 113 and the full buffer. -/
theorem encode_of_ok (hf : s.flt = false) (h : exec (.encode n p) s = .next t) (hr : t.out = s.out ++ [r])
    (hok : r.st = .ok) : r = encodeReply n ∧ t = (encoded n s).answer (encodeReply n) := by
  obtain ⟨rfl, hne⟩ | hp := encode_mismatches_or_succeeds n p
  · rw [next_inj (h.symm.trans (exec_encode_mismatch hf hne)), State.answer_out, State.dropBuffer_out] at hr
    obtain ⟨-, rfl⟩ := List.append_singleton_inj.1 hr
    cases hok
  · obtain rfl := next_inj (h.symm.trans (exec_encode hf hp))
    rw [State.answer_out, encoded_out] at hr
    obtain ⟨-, rfl⟩ := List.append_singleton_inj.1 hr
    exact ⟨rfl, rfl⟩

/-- ENCODE is a function of its word: response, status bits and buffer are the same from any two unfaulted blocks. -/
theorem encode_same (hf : s.flt = false) (hf' : s'.flt = false) (h : exec (.encode n p) s = .next t)
    (h' : exec (.encode n p) s' = .next t') :
    (∃ r, t.out = s.out ++ [r] ∧ t'.out = s'.out ++ [r]) ∧ t.bv = t'.bv ∧ t.flt = t'.flt ∧
    (t.bv = true → t.cap = t'.cap ∧ t.cur = t'.cur ∧ ∀ a, a < t.nb → t.buf.read a = t'.buf.read a) := by
  obtain ⟨rfl, hne⟩ | hp := encode_mismatches_or_succeeds n p
  · obtain rfl := next_inj (h.symm.trans (exec_encode_mismatch hf hne))
    obtain rfl := next_inj (h'.symm.trans (exec_encode_mismatch hf' hne))
    exact ⟨⟨_, rfl, rfl⟩, rfl, hf.trans hf'.symm, nofun⟩
  · obtain rfl := next_inj (h.symm.trans (exec_encode hf hp))
    obtain rfl := next_inj (h'.symm.trans (exec_encode hf' hp))
    simp only [State.answer_nb, State.answer_out, State.answer_bv, State.answer_flt, State.answer_cap, State.answer_cur,
      State.answer_buf, encoded_nb, encoded_out, encoded_bv, encoded_flt, encoded_cap, encoded_cur, hf, hf', true_and]
    exact ⟨⟨_, rfl, rfl⟩, fun _ a ha => read_encoded_eq n s s' ha⟩

end laws

/-- Settles O47: each law from the two outcomes of ENCODE in an unfaulted block. -/
theorem encodeLaws : Obligations.EncodeLaws := by
  refine ⟨fun n s t r hf h0 h hr hst => ?_, fun n s hf hne => ?_, fun n p s s' t t' => encode_same,
    fun n p s t r hf h hr hok => ?_, fun n s hf => ?_, fun n s h0 => ?_⟩
  · obtain ⟨-, m, hm, hne⟩ := execStatus_eq_mismatch_iff.1 ((st_eq_execStatus h hr).symm.trans hst)
    cases hm
    exact hne h0
  · exact ⟨_, _, exec_encode_mismatch hf hne, rfl, expected_le _,
      (checksum_withCheckDigit_iff (isDigits_digits _) (expected_le _)).2 rfl⟩
  · obtain ⟨rfl, rfl⟩ := encode_of_ok hf h hr hok
    rw [State.answer_cur, State.answer_cap]
    exact ⟨rfl, encoded_cur n s, encoded_cap n s, length_pattern _ _⟩
  · exact ⟨_, encodeReply n, exec_encode hf (.inl rfl), by rw [State.answer_out, encoded_out], rfl⟩
  · cases hf : s.flt with
    | true => exact (unlessFaulted_of_flt hf).trans (unlessFaulted_of_flt hf).symm
    | false => rw [exec_encode hf (.inr h0), exec_encode hf (.inr h0)]

/-! ### The buffer is taken -/

/-- A full buffer takes no append of one bit or more. -/
theorem exec_append_of_full {t : State} {v : VWord} {w : Half} (hf : t.flt = false) (hb : t.bv = true)
    (hfull : t.cur = t.cap) (hw : 1 ≤ w.toNat) :
    exec (.append v w) t = .next { t with flt := true, out := t.out ++ [⟨.boundsFault, 0, []⟩] } :=
  exec_of_exceedsCapacity rfl hf hb (decide_eq_true (by rw [hfull]; omega))

/-- Settles O49: a reported outcome drops the buffer, a success fills it. -/
theorem encodeTakesTheBuffer : Obligations.EncodeTakesTheBuffer := by
  intro i s t hi hf h
  have hdropped (r : Response) (ht : t = s.dropBuffer.answer r) :
      t.bv = false ∧ exec .rawbytes t = .next (t.answer ⟨.noBuffer, 0, []⟩) := by
    subst ht
    exact ⟨rfl, exec_of_noBuffer rfl hf rfl rfl⟩
  cases i with
  | encode n p =>
    obtain ⟨rfl, hne⟩ | hp := encode_mismatches_or_succeeds n p
    · exact .inl (hdropped _ (next_inj (h.symm.trans (exec_encode_mismatch hf hne))))
    · obtain rfl := next_inj (h.symm.trans (exec_encode hf hp))
      exact .inr ⟨by simp, by simp, fun _ _ hw => exec_append_of_full (by simp [hf]) (by simp) (by simp) hw⟩
  | encodeU1 n p => exact .inl (hdropped _ (next_inj (h.symm.trans (unlessFaulted_of_ok hf))))
  | encodeU2 n p => exact .inl (hdropped _ (next_inj (h.symm.trans (unlessFaulted_of_ok hf))))
  | _ => simp [Instr.mnemonic] at hi

end Sys2Proof.Machine
end
